-- ==== Sys2Proof/Word.lean ====
section
/-! DEFINITION. The word types of the machine (00_scope.md R6, R7): every value is an unsigned bit vector of the width the spec gives it. -/

namespace Sys2Proof

/-- A byte: a general register, a timer, a memory cell (R10, R15, R30). -/
abbrev Byte := BitVec 8

/-- Sixteen bits: an instruction word, `I`, `PC`, a stack entry (R46, R12, R14, R17). -/
abbrev Word := BitVec 16

/-- The 12-bit address operand `nnn` (30_encoding.md R47). -/
abbrev Addr := BitVec 12

/-- Four bits: an opcode class, a sub-opcode, the sprite height `n` (R47). -/
abbrev Nibble := BitVec 4

/-- A register index, the fields `x` and `y`; every value names a register (R47, R51). -/
abbrev Reg := BitVec 4

end Sys2Proof
end

