-- ==== Sys2Proof/Syntax.lean ====
section
/-! DEFINITION. The 32 instructions of 30_encoding.md R50, one constructor a row of spec/opcode_table.json. -/

namespace Sys2Proof

/-- The decoded instruction (R47 to R50). Each operand has the width of its field, and every value of every operand is legal
(R51). `shr` keeps the `y` field, which its meaning ignores (R52, R58). -/
inductive Instr where
  /-- `00E0` clear the display, R111. -/
  | cls
  /-- `00EE` return, R70. -/
  | ret
  /-- `1nnn` jump, R71. -/
  | jp (nnn : Addr)
  /-- `2nnn` call, R73. -/
  | call (nnn : Addr)
  /-- `3xkk` skip if equal to the immediate, R74. -/
  | seImm (x : Reg) (kk : Byte)
  /-- `4xkk` skip if not equal to the immediate, R75. -/
  | sneImm (x : Reg) (kk : Byte)
  /-- `5xy0` skip if the registers are equal, R76. -/
  | seReg (x y : Reg)
  /-- `6xkk` set to the immediate, R82. -/
  | ldImm (x : Reg) (kk : Byte)
  /-- `7xkk` add the immediate, R83. -/
  | addImm (x : Reg) (kk : Byte)
  /-- `8xy0` copy, R90. -/
  | ldReg (x y : Reg)
  /-- `8xy1` or, R84. -/
  | orReg (x y : Reg)
  /-- `8xy2` and, R85. -/
  | andReg (x y : Reg)
  /-- `8xy3` exclusive or, R86. -/
  | xorReg (x y : Reg)
  /-- `8xy4` add, R87. -/
  | addReg (x y : Reg)
  /-- `8xy5` subtract, R88. -/
  | subReg (x y : Reg)
  /-- `8xy6` shift right, R89. -/
  | shr (x y : Reg)
  /-- `9xy0` skip if the registers differ, R77. -/
  | sneReg (x y : Reg)
  /-- `Annn` set the index register, R94. -/
  | ldI (nnn : Addr)
  /-- `Bnnn` jump with offset, R72. -/
  | jpV0 (nnn : Addr)
  /-- `Cxkk` random, R105. -/
  | rnd (x : Reg) (kk : Byte)
  /-- `Dxyn` draw a sprite, R112. -/
  | drw (x y : Reg) (n : Nibble)
  /-- `Ex9E` skip if the key is pressed, R106. -/
  | skp (x : Reg)
  /-- `ExA1` skip if the key is not pressed, R107. -/
  | sknp (x : Reg)
  /-- `Fx07` read the delay timer, R102. -/
  | ldVxDT (x : Reg)
  /-- `Fx0A` wait for a key, R108. -/
  | ldVxK (x : Reg)
  /-- `Fx15` set the delay timer, R103. -/
  | ldDTVx (x : Reg)
  /-- `Fx18` set the sound timer, R104. -/
  | ldSTVx (x : Reg)
  /-- `Fx1E` add to the index register, R95. -/
  | addI (x : Reg)
  /-- `Fx29` font address, R96. -/
  | ldF (x : Reg)
  /-- `Fx33` store the decimal digits, R97. -/
  | ldB (x : Reg)
  /-- `Fx55` store registers, R98. -/
  | ldMemVx (x : Reg)
  /-- `Fx65` load registers, R99. -/
  | ldVxMem (x : Reg)
  deriving DecidableEq, Repr

end Sys2Proof
end

