-- ==== Sys2Proof/Decode.lean ====
section
/-! DEFINITION. The decoder of 30_encoding.md (R46 to R49), total on every word, and the encoder written from the same table
(R47, R48, R50; 95_test_vectors.md E9). -/

namespace Sys2Proof

/-- The instruction word of the two raw bytes, first byte in bits 15 to 8 (R46, 20_memory.md R33). -/
def wordOfBytes (first second : Byte) : Word := first ++ second

/-- The first byte of a word as it lies in memory. -/
def firstByte (w : Word) : Byte := w.extractLsb' 8 8

/-- The second byte of a word as it lies in memory. -/
def secondByte (w : Word) : Byte := w.extractLsb' 0 8

/-- Field `op`, bits 15 to 12 (R47). -/
def opField (w : Word) : Nibble := w.extractLsb' 12 4

/-- Field `x`, bits 11 to 8 (R47). -/
def xField (w : Word) : Reg := w.extractLsb' 8 4

/-- Field `y`, bits 7 to 4 (R47). -/
def yField (w : Word) : Reg := w.extractLsb' 4 4

/-- Field `n`, bits 3 to 0 (R47). -/
def nField (w : Word) : Nibble := w.extractLsb' 0 4

/-- Field `kk`, bits 7 to 0 (R47). -/
def kkField (w : Word) : Byte := w.extractLsb' 0 8

/-- Field `nnn`, bits 11 to 0 (R47). -/
def nnnField (w : Word) : Addr := w.extractLsb' 0 12

/-- What decoding yields: an instruction, or the distinguished "unknown" tag carrying the word (R49). -/
inductive Decoded where
  | instr (i : Instr)
  /-- No instruction; the engine turns it into the fault UnknownOpcode (R62). -/
  | unknown (w : Word)
  deriving DecidableEq, Repr

/-- Class 0: the whole word must match (R49, D22). -/
def decodeClass0 (w : Word) : Decoded :=
  if w = 0x00E0 then .instr .cls
  else if w = 0x00EE then .instr .ret
  else .unknown w

/-- Class 8: the low nibble of the second byte (R49). -/
def decodeClass8 (w : Word) (x y : Reg) (n : Nibble) : Decoded :=
  if n = 0x0 then .instr (.ldReg x y)
  else if n = 0x1 then .instr (.orReg x y)
  else if n = 0x2 then .instr (.andReg x y)
  else if n = 0x3 then .instr (.xorReg x y)
  else if n = 0x4 then .instr (.addReg x y)
  else if n = 0x5 then .instr (.subReg x y)
  else if n = 0x6 then .instr (.shr x y)
  else .unknown w

/-- Class E: the full second byte (R49). -/
def decodeClassE (w : Word) (x : Reg) (kk : Byte) : Decoded :=
  if kk = 0x9E then .instr (.skp x)
  else if kk = 0xA1 then .instr (.sknp x)
  else .unknown w

/-- Class F: the full second byte (R49). -/
def decodeClassF (w : Word) (x : Reg) (kk : Byte) : Decoded :=
  if kk = 0x07 then .instr (.ldVxDT x)
  else if kk = 0x0A then .instr (.ldVxK x)
  else if kk = 0x15 then .instr (.ldDTVx x)
  else if kk = 0x18 then .instr (.ldSTVx x)
  else if kk = 0x1E then .instr (.addI x)
  else if kk = 0x29 then .instr (.ldF x)
  else if kk = 0x33 then .instr (.ldB x)
  else if kk = 0x55 then .instr (.ldMemVx x)
  else if kk = 0x65 then .instr (.ldVxMem x)
  else .unknown w

/-- The class of a word decides which fields are read (R48, R49). -/
def decodeClass (op : Nibble) (w : Word) : Decoded :=
  match op with
  | 0x0#4 => decodeClass0 w
  | 0x1#4 => .instr (.jp (nnnField w))
  | 0x2#4 => .instr (.call (nnnField w))
  | 0x3#4 => .instr (.seImm (xField w) (kkField w))
  | 0x4#4 => .instr (.sneImm (xField w) (kkField w))
  | 0x5#4 => if nField w = 0x0 then .instr (.seReg (xField w) (yField w)) else .unknown w
  | 0x6#4 => .instr (.ldImm (xField w) (kkField w))
  | 0x7#4 => .instr (.addImm (xField w) (kkField w))
  | 0x8#4 => decodeClass8 w (xField w) (yField w) (nField w)
  | 0x9#4 => if nField w = 0x0 then .instr (.sneReg (xField w) (yField w)) else .unknown w
  | 0xA#4 => .instr (.ldI (nnnField w))
  | 0xB#4 => .instr (.jpV0 (nnnField w))
  | 0xC#4 => .instr (.rnd (xField w) (kkField w))
  | 0xD#4 => .instr (.drw (xField w) (yField w) (nField w))
  | 0xE#4 => decodeClassE w (xField w) (kkField w)
  | 0xF#4 => decodeClassF w (xField w) (kkField w)
  | _ => .unknown w

/-- The decoder, R49: a pure and total function of the word. -/
def decode (w : Word) : Decoded := decodeClass (opField w) w

/-- The decoder on its raw input, two bytes in address order (R46). -/
def decodeBytes (first second : Byte) : Decoded := decode (wordOfBytes first second)

/-- Format A: class and address (R48). -/
def formA (op : Nibble) (nnn : Addr) : Word := op ++ nnn

/-- Formats XK and X: class, register, second byte (R48). -/
def formXK (op : Nibble) (x : Reg) (kk : Byte) : Word := op ++ (x ++ kk)

/-- Formats XY and XYN: class, two registers, low nibble (R48). -/
def formXY (op : Nibble) (x y : Reg) (n : Nibble) : Word := op ++ (x ++ (y ++ n))

/-- The word of an instruction, from the patterns of R50. -/
def encode : Instr → Word
  | .cls => 0x00E0
  | .ret => 0x00EE
  | .jp nnn => formA 0x1 nnn
  | .call nnn => formA 0x2 nnn
  | .seImm x kk => formXK 0x3 x kk
  | .sneImm x kk => formXK 0x4 x kk
  | .seReg x y => formXY 0x5 x y 0x0
  | .ldImm x kk => formXK 0x6 x kk
  | .addImm x kk => formXK 0x7 x kk
  | .ldReg x y => formXY 0x8 x y 0x0
  | .orReg x y => formXY 0x8 x y 0x1
  | .andReg x y => formXY 0x8 x y 0x2
  | .xorReg x y => formXY 0x8 x y 0x3
  | .addReg x y => formXY 0x8 x y 0x4
  | .subReg x y => formXY 0x8 x y 0x5
  | .shr x y => formXY 0x8 x y 0x6
  | .sneReg x y => formXY 0x9 x y 0x0
  | .ldI nnn => formA 0xA nnn
  | .jpV0 nnn => formA 0xB nnn
  | .rnd x kk => formXK 0xC x kk
  | .drw x y n => formXY 0xD x y n
  | .skp x => formXK 0xE x 0x9E
  | .sknp x => formXK 0xE x 0xA1
  | .ldVxDT x => formXK 0xF x 0x07
  | .ldVxK x => formXK 0xF x 0x0A
  | .ldDTVx x => formXK 0xF x 0x15
  | .ldSTVx x => formXK 0xF x 0x18
  | .addI x => formXK 0xF x 0x1E
  | .ldF x => formXK 0xF x 0x29
  | .ldB x => formXK 0xF x 0x33
  | .ldMemVx x => formXK 0xF x 0x55
  | .ldVxMem x => formXK 0xF x 0x65

/-- The row of R50 an instruction belongs to. -/
def rowOf : Instr → Row
  | .cls => ⟨"CLS", 0x00E0, 0xFFFF⟩
  | .ret => ⟨"RET", 0x00EE, 0xFFFF⟩
  | .jp _ => ⟨"JP_nnn", 0x1000, 0xF000⟩
  | .call _ => ⟨"CALL_nnn", 0x2000, 0xF000⟩
  | .seImm _ _ => ⟨"SE_Vx__kk", 0x3000, 0xF000⟩
  | .sneImm _ _ => ⟨"SNE_Vx__kk", 0x4000, 0xF000⟩
  | .seReg _ _ => ⟨"SE_Vx__Vy", 0x5000, 0xF00F⟩
  | .ldImm _ _ => ⟨"LD_Vx__kk", 0x6000, 0xF000⟩
  | .addImm _ _ => ⟨"ADD_Vx__kk", 0x7000, 0xF000⟩
  | .ldReg _ _ => ⟨"LD_Vx__Vy", 0x8000, 0xF00F⟩
  | .orReg _ _ => ⟨"OR_Vx__Vy", 0x8001, 0xF00F⟩
  | .andReg _ _ => ⟨"AND_Vx__Vy", 0x8002, 0xF00F⟩
  | .xorReg _ _ => ⟨"XOR_Vx__Vy", 0x8003, 0xF00F⟩
  | .addReg _ _ => ⟨"ADD_Vx__Vy", 0x8004, 0xF00F⟩
  | .subReg _ _ => ⟨"SUB_Vx__Vy", 0x8005, 0xF00F⟩
  | .shr _ _ => ⟨"SHR_Vx", 0x8006, 0xF00F⟩
  | .sneReg _ _ => ⟨"SNE_Vx__Vy", 0x9000, 0xF00F⟩
  | .ldI _ => ⟨"LD_I__nnn", 0xA000, 0xF000⟩
  | .jpV0 _ => ⟨"JP_V0__nnn", 0xB000, 0xF000⟩
  | .rnd _ _ => ⟨"RND_Vx__kk", 0xC000, 0xF000⟩
  | .drw _ _ _ => ⟨"DRW_Vx__Vy__n", 0xD000, 0xF000⟩
  | .skp _ => ⟨"SKP_Vx", 0xE09E, 0xF0FF⟩
  | .sknp _ => ⟨"SKNP_Vx", 0xE0A1, 0xF0FF⟩
  | .ldVxDT _ => ⟨"LD_Vx__DT", 0xF007, 0xF0FF⟩
  | .ldVxK _ => ⟨"LD_Vx__K", 0xF00A, 0xF0FF⟩
  | .ldDTVx _ => ⟨"LD_DT__Vx", 0xF015, 0xF0FF⟩
  | .ldSTVx _ => ⟨"LD_ST__Vx", 0xF018, 0xF0FF⟩
  | .addI _ => ⟨"ADD_I__Vx", 0xF01E, 0xF0FF⟩
  | .ldF _ => ⟨"LD_F__Vx", 0xF029, 0xF0FF⟩
  | .ldB _ => ⟨"LD_B__Vx", 0xF033, 0xF0FF⟩
  | .ldMemVx _ => ⟨"LD__I___Vx", 0xF055, 0xF0FF⟩
  | .ldVxMem _ => ⟨"LD_Vx___I", 0xF065, 0xF0FF⟩

/-- The 16-bit word that spec/opcode_table.json's numbering gives: bit 0 is the least significant bit of the word, and the bits
above `nbits` are 0 (98_reader.md). -/
def tableWord (nbits w : Nat) : Word := BitVec.ofNat 16 (w % 2 ^ nbits)

/-- The instruction the decoder reads from a table word laid out as the hardware stores it, most significant byte first. -/
def decodeTableWord (nbits w : Nat) : Option Instr :=
  match decodeBytes (firstByte (tableWord nbits w)) (secondByte (tableWord nbits w)) with
  | .instr i => some i
  | .unknown _ => none

end Sys2Proof
end

