-- ==== Sys2Proof/Config.lean ====
section
/-! DEFINITION. What the hardware fixes (00_scope.md R6) and the one free value (44_timer_random_key.md R105).
The font table, also a parameter of R6, is in Machine/Font.lean. DRAW_EDGE is `wrap` and EXT_SUBN_SHL is `false` for this
hardware; the model has those two values built in (notes/assumptions/7.md, 8.md). -/

namespace Sys2Proof

/-- `MEM_SIZE`, R6. -/
abbrev Config.memSize : Nat := 4096

/-- `PROGRAM_BASE`, which is also `PC_RESET`, R6. -/
abbrev Config.programBase : Nat := 0x200

/-- `MAX_PROGRAM`, R6 and R143. -/
abbrev Config.maxProgram : Nat := 3584

/-- `DISPLAY_W`, R6. -/
abbrev Config.displayW : Nat := 64

/-- `DISPLAY_H`, R6. -/
abbrev Config.displayH : Nat := 32

/-- The free byte of the k-th execution of RND (R105, 93_implementation_defined.md U2): "a free 8-bit input of the step",
"subject to no law". It has no body, so nothing can be proved of its value. Log entry 2. -/
opaque Config.freeByte : Nat → Byte

end Sys2Proof
end

