-- ==== Sys2Proof/Machine/State.lean ====
section
/-! DEFINITION. The machine's state (10_state.md R10 to R24), the faults (60_exceptions.md R117) and the state after reset. -/

namespace Sys2Proof.Machine

open Sys2Proof

/-- The 4096 bytes (R18, R30) as the list of those that differ from their reset contents, addresses strictly rising.
`Memory.wf` in Machine/Memory.lean states the form; an address not listed reads as `resetByte`. -/
abbrev Memory := List Host.Cell

/-- The 64 by 32 grid of one-bit cells, row-major (R19): 32 rows of 64 cells, cell `(xx, yy)` at bit `xx` of row `yy`. -/
abbrev Display := Vector (BitVec 64) 32

/-- The four faults of R117. Each ends the step, is delivered to the host as the step's result, and leaves the state as it was
before the step (R119, R121). They are the hardware's own: reporting one is exact, hence safe. -/
inductive Fault where
  /-- Code 1, raised by the step when the fetched word is no instruction (R62). Safe. -/
  | unknownOpcode (pc : Word) (bytes : Word)
  /-- Code 2, raised by CALL with 16 entries in use (R73). Safe. -/
  | stackOverflow (pc : Word)
  /-- Code 3, raised by RET with an empty stack (R70). Safe. -/
  | stackUnderflow (pc : Word)
  /-- Code 4, raised by the fetch, DRW, LD B, LD [I] and LD Vx,[I] when the access would pass address 4095 (R37); `addr` is the
  lowest address above 4095 it would have touched. Safe. -/
  | addressOutOfRange (pc : Word) (addr : Nat)
  deriving DecidableEq, Repr

/-- Why an instruction would have no meaning. No instruction of this machine is refused. -/
inductive Refusal where
  /-- Raised by an arm of `exec` for an instruction not yet modelled; safe, since nothing can be proved of a run past it. -/
  | notModelled (mnemonic : String)
  deriving DecidableEq, Repr

/-- All the architectural state (R22), and the model's own counter of random draws. -/
structure State where
  /-- The general registers `V[0]` to `V[15]`, R10; `VF` is `V[15]`, R11. -/
  v : Vector Byte 16
  /-- The index register, R12. -/
  i : Word
  /-- The program counter, R13, R14. -/
  pc : Word
  /-- The delay timer, R15. -/
  dt : Byte
  /-- The sound timer, R16. -/
  st : Byte
  /-- The number of stack entries in use, 0 to 16, R17. -/
  sp : Fin 17
  /-- The stack's entries, R17; those at index `sp` and above are dead storage. -/
  stack : Vector Word 16
  /-- The memory, R18. -/
  mem : Memory
  /-- The display buffer, R19. -/
  disp : Display
  /-- The input snapshot, `true` for pressed, R20. -/
  key : Vector Bool 16
  /-- How many random bytes RND has drawn. The MODEL'S OWN field, no state of the hardware (R105); log entry 2. -/
  draws : Nat
  deriving DecidableEq, Repr

/-- What one step or one meaning answers. -/
abbrev Result := Host.Outcome State Fault Refusal

/-- The state after reset, R24 and R140: all zero but `PC` = 0x200 and the font bytes, which are the reset contents of memory
that nothing has written. -/
def State.reset : State where
  v := Vector.replicate 16 0
  i := 0
  pc := 0x200
  dt := 0
  st := 0
  sp := 0
  stack := Vector.replicate 16 0
  mem := []
  disp := Vector.replicate 32 0
  key := Vector.replicate 16 false
  draws := 0

end Sys2Proof.Machine
end

