-- ==== Sys2Proof/Machine/Font.lean ====
section
/-! DEFINITION. The font table and the reset contents of memory (20_memory.md R32, R36). -/

namespace Sys2Proof.Machine

open Sys2Proof

/-- `FONT_TABLE`, R36: 16 glyphs of 5 bytes. The byte values are the spec's from general knowledge (D24); log entry 5. -/
def fontTable : List Byte :=
  [0xF0, 0x90, 0x90, 0x90, 0xF0] ++ [0x20, 0x60, 0x20, 0x20, 0x70] ++ [0xF0, 0x10, 0xF0, 0x80, 0xF0] ++
  [0xF0, 0x10, 0xF0, 0x10, 0xF0] ++ [0x90, 0x90, 0xF0, 0x10, 0x10] ++ [0xF0, 0x80, 0xF0, 0x10, 0xF0] ++
  [0xF0, 0x80, 0xF0, 0x90, 0xF0] ++ [0xF0, 0x10, 0x20, 0x40, 0x40] ++ [0xF0, 0x90, 0xF0, 0x90, 0xF0] ++
  [0xF0, 0x90, 0xF0, 0x10, 0xF0] ++ [0xF0, 0x90, 0xF0, 0x90, 0x90] ++ [0xE0, 0x90, 0xE0, 0x90, 0xE0] ++
  [0xF0, 0x80, 0x80, 0x80, 0xF0] ++ [0xE0, 0x90, 0x90, 0x90, 0xE0] ++ [0xF0, 0x80, 0xF0, 0x80, 0xF0] ++
  [0xF0, 0x80, 0xF0, 0x80, 0x80]

/-- What an address that nothing has written reads as: the font at 0x000 to 0x04F and 0 everywhere else (R18, R24). -/
def resetByte (a : Nat) : Byte := fontTable.getD a 0

end Sys2Proof.Machine
end

