-- ==== Sys2Proof/Machine/Memory.lean ====
section
/-! DEFINITION. The two primitives over memory, `MemRead` and `MemWrite` of one byte (00_scope.md R8, 20_memory.md R38), runs of
bytes at ascending addresses (R34), and the canonical form. The bounds check is the callers' (R8, R37). -/

namespace Sys2Proof.Machine

open Sys2Proof

/-- `MemRead(a, 1)`: the byte last written at `a`, or its reset contents (R38, R40). -/
def Memory.read : Memory → Nat → Byte
  | [], a => resetByte a
  | (b, v) :: rest, a => if a = b then v else Memory.read rest a

/-- The list without a cell at `a`, so that `a` reads as its reset contents. -/
def Memory.erase (m : Memory) (a : Nat) : Memory := m.filter fun c => c.1 != a

/-- A new cell put before the first cell of a higher address. -/
def Memory.insert (a : Nat) (v : Byte) : Memory → Memory
  | [] => [(a, v)]
  | c :: rest => if a < c.1 then (a, v) :: c :: rest else c :: Memory.insert a v rest

/-- `MemWrite(a, 1, v)`: replaces the byte at `a` (R38), keeping the canonical form: the reset contents are not listed. -/
def Memory.write (m : Memory) (a : Nat) (v : Byte) : Memory :=
  if v = resetByte a then Memory.erase m a else Memory.insert a v (Memory.erase m a)

/-- The bytes at `a`, `a + 1`, ..., `a + n - 1` (R34). -/
def Memory.readBytes (m : Memory) (a : Nat) : Nat → List Byte
  | 0 => []
  | n + 1 => Memory.read m a :: Memory.readBytes m (a + 1) n

/-- The bytes stored one by one at `a`, `a + 1`, ... (R34). -/
def Memory.writeBytes (m : Memory) (a : Nat) : List Byte → Memory
  | [] => m
  | v :: vs => Memory.writeBytes (Memory.write m a v) (a + 1) vs

/-- The canonical form: addresses strictly rising and below 4096, and no cell holding its reset contents. -/
def Memory.wf : Memory → Bool
  | [] => true
  | (a, v) :: rest =>
    decide (a < Config.memSize) && (v != resetByte a) && rest.all (fun c => decide (a < c.1)) && Memory.wf rest

end Sys2Proof.Machine
end

