-- ==== Sys2Proof/Machine/Ops.lean ====
section
/-! DEFINITION. The named operations every meaning is written with: registers, the program counter, the call stack, the display's
two primitives, raising a fault, and the fetch. -/

namespace Sys2Proof.Machine

open Sys2Proof

/-- Raising a fault is all of trap entry on this hardware (60_exceptions.md R121): the step ends with the fault, no state is
saved or changed (R119), and control goes to no vector. There is no return from a fault (R122). -/
def raise (f : Fault) : Result := .fault f

/-- The code of a fault, R117; 0 would mean "no fault". -/
def Fault.code : Fault → Nat
  | .unknownOpcode _ _ => 1
  | .stackOverflow _ => 2
  | .stackUnderflow _ => 3
  | .addressOutOfRange _ _ => 4

/-- Read `V[x]` (00_scope.md R8). -/
def State.reg (s : State) (x : Reg) : Byte := s.v[x.toNat]'x.isLt

/-- Write `V[x]` (R8). No register is hardwired (R10). -/
def State.setReg (s : State) (x : Reg) (b : Byte) : State := { s with v := s.v.set x.toNat b x.isLt }

/-- Write the index register, all 16 bits (10_state.md R12). -/
def State.setI (s : State) (a : Word) : State := { s with i := a }

/-- The delay timer's `set` (60_exceptions.md R127). -/
def State.setDelay (s : State) (b : Byte) : State := { s with dt := b }

/-- The sound timer's `set` (R127). -/
def State.setSound (s : State) (b : Byte) : State := { s with st := b }

/-- The memory replaced. -/
def State.setMem (s : State) (m : Memory) : State := { s with mem := m }

/-- The display buffer replaced. -/
def State.setDisp (s : State) (d : Display) : State := { s with disp := d }

/-- One more random byte drawn (44_timer_random_key.md R105; log entry 2). -/
def State.countDraw (s : State) : State := { s with draws := s.draws + 1 }

/-- The index of `VF`, R11. -/
def vf : Reg := 0xF

/-- A handler that did not redirect: the step writes `PC + 2` (40_step_cycle.md R64). No executed instruction lets the 16 bits
wrap (10_state.md R14). -/
def State.advance (s : State) : State := { s with pc := s.pc + 2 }

/-- A taken skip writes `PC + 4`, without looking at the skipped word (R64). -/
def State.skip (s : State) : State := { s with pc := s.pc + 4 }

/-- A redirect: the handler writes the program counter itself (R64). -/
def State.jump (s : State) (target : Word) : State := { s with pc := target }

/-- The conditional skip of R64. -/
def State.skipIf (s : State) (c : Bool) : State := if c then s.skip else s.advance

/-- `zext_16(nnn)` (R51): an absolute byte address, not scaled. -/
def zextAddr (nnn : Addr) : Word := nnn.setWidth 16

/-- Push, 10_state.md R17: `none` with 16 entries in use. -/
def State.push (s : State) (value : Word) : Option State :=
  if h : s.sp.val < 16 then
    some { s with stack := s.stack.set s.sp.val value h, sp := ⟨s.sp.val + 1, by omega⟩ }
  else none

/-- Pop, R17: `none` when the stack is empty; the popped entry's bits stay in place. -/
def State.pop (s : State) : Option (Word × State) :=
  if h : 0 < s.sp.val then
    some (s.stack[s.sp.val - 1]'(by omega), { s with sp := ⟨s.sp.val - 1, by omega⟩ })
  else none

/-- `DISP[xx, yy]`, R19. -/
def Display.pixel (d : Display) (xx : Fin 64) (yy : Fin 32) : Bool := d[yy].getLsbD xx.val

/-- The same cells by their linear index `xx + yy * 64`, 0 to 2047 (R19, 45_display.md R113). -/
def Display.linear (d : Display) (k : Fin 2048) : Bool :=
  Display.pixel d (Fin.ofNat 64 k.val) (Fin.ofNat 32 (k.val / 64))

/-- `toggle(xx, yy)`, R113: exclusive-or of one cell; also its previous value. -/
def Display.toggle (d : Display) (xx : Fin 64) (yy : Fin 32) : Display × Bool :=
  (d.set yy.val (d[yy] ^^^ BitVec.twoPow 64 xx.val) yy.isLt, Display.pixel d xx yy)

/-- `clear()`, R113. -/
def Display.clear (_ : Display) : Display := Vector.replicate 32 0

/-- The display column of sprite column `c`, wrapped (45_display.md R114, D17; log entry 7). -/
def spriteCol (vx c : Nat) : Fin 64 := Fin.ofNat 64 (vx + c)

/-- The display row of sprite row `r`, wrapped (R114). -/
def spriteRow (vy r : Nat) : Fin 32 := Fin.ofNat 32 (vy + r)

/-- One sprite pixel, R112 and R115: sprite column `c` of row `r` is bit `7 - c` of the row's byte. The pair is the buffer and
the collision so far. -/
def drawPixel (vx vy r : Nat) (b : Byte) (p : Display × Bool) (c : Nat) : Display × Bool :=
  if b.getLsbD (7 - c) then
    ((Display.toggle p.1 (spriteCol vx c) (spriteRow vy r)).1,
     p.2 || (Display.toggle p.1 (spriteCol vx c) (spriteRow vy r)).2)
  else p

/-- One sprite row, columns 0 to 7 (R112). -/
def drawRow (vx vy r : Nat) (b : Byte) (p : Display × Bool) : Display × Bool :=
  [0, 1, 2, 3, 4, 5, 6, 7].foldl (drawPixel vx vy r b) p

/-- The sprite's rows from row `r` on (R112). -/
def drawRows (vx vy r : Nat) : List Byte → Display × Bool → Display × Bool
  | [], p => p
  | b :: bs, p => drawRows vx vy (r + 1) bs (drawRow vx vy r b p)

/-- The whole sprite: the new buffer and the collision flag (R112). -/
def drawSprite (vx vy : Nat) (rows : List Byte) (d : Display) : Display × Bool := drawRows vx vy 0 rows (d, false)

/-- The bytes of the word at `PC`, assembled big-endian (20_memory.md R33). -/
def State.wordAt (s : State) (a : Nat) : Word := wordOfBytes (Memory.read s.mem a) (Memory.read s.mem (a + 1))

/-- Fetch, 40_step_cycle.md R61: the bound is checked before anything is read. `addr` is 4096 if `PC` = 4095, else `PC`
(60_exceptions.md R117). -/
def fetch (s : State) : Except Fault Word :=
  if s.pc.toNat > 4094 then .error (.addressOutOfRange s.pc (if s.pc.toNat = 4095 then 4096 else s.pc.toNat))
  else .ok (s.wordAt s.pc.toNat)

/-- Fetch and decode, lines 1 to 4 of R60: an unknown word is the fault UnknownOpcode (R62). -/
def fetchInstr (s : State) : Except Fault Instr :=
  match fetch s with
  | .error f => .error f
  | .ok w =>
    match decode w with
    | .instr i => .ok i
    | .unknown u => .error (.unknownOpcode s.pc u)

/-- A word stored at `PC` as the hardware stores it, first byte high (R33). Where `PC` > 4094 no word can be fetched and the
state is left as it is (log entry 17). -/
def State.placeWord (s : State) (w : Word) : State :=
  if s.pc.toNat > 4094 then s
  else s.setMem (Memory.writeBytes s.mem s.pc.toNat [firstByte w, secondByte w])

end Sys2Proof.Machine
end

