-- ==== Sys2Proof/Machine/Operands.lean ====
section
/-! DEFINITION. The operand forms: the data range at `I` (43_index_memory.md R100), the register block, the key index (R109), the
pressed key (R108) and the decimal digits (R97). -/

namespace Sys2Proof.Machine

open Sys2Proof

/-- The check of 20_memory.md R37 for an access to the `n` bytes from `I`: sums are computed without truncation, the whole range
is checked before any access, and a range of no bytes never faults. -/
def State.rangeFaults (s : State) (n : Nat) : Bool := decide (1 ≤ n ∧ s.i.toNat + n - 1 > 4095)

/-- The fault of that check: `addr` is `max(I, 4096)` (60_exceptions.md R117). -/
def State.rangeFault (s : State) : Fault := .addressOutOfRange s.pc (max s.i.toNat 4096)

/-- An access to the `n` bytes from `I`: the fault, or what `k` does with the base address (R37). -/
def State.withRange (s : State) (n : Nat) (k : Nat → Result) : Result :=
  if s.rangeFaults n then raise s.rangeFault else k s.i.toNat

/-- The registers `V[0]` to `V[x]`, in order (R98). -/
def State.regBlock (s : State) (x : Reg) : List Byte := s.v.toList.take (x.toNat + 1)

/-- The register file with `V[j]` loaded from `base + j` for `j` = 0 to `x` (R99). -/
def State.loadBlock (s : State) (base : Nat) (x : Reg) : State :=
  { s with v := Vector.ofFn fun j => if j.val ≤ x.toNat then Memory.read s.mem (base + j.val) else s.v[j] }

/-- The key entry a register selects: the low four bits of the register (R109, D19; log entry 12). -/
def keyIndex (b : Byte) : Nibble := b.extractLsb' 0 4

/-- `KEY[k]`, 10_state.md R20. -/
def State.keyDown (s : State) (k : Nibble) : Bool := s.key[k.toNat]'k.isLt

/-- The least pressed key index, or `none` when none is pressed (R108, D20; log entry 13). -/
def State.firstKey (s : State) : Option Nat := s.key.toList.findIdx? id

/-- The three decimal digits of a byte, most significant first, each a byte (R97). -/
def bcdDigits (b : Byte) : List Byte :=
  [BitVec.ofNat 8 (b.toNat / 100), BitVec.ofNat 8 (b.toNat / 10 % 10), BitVec.ofNat 8 (b.toNat % 10)]

end Sys2Proof.Machine
end

