-- ==== Sys2Proof/Machine/Flags.lean ====
section
/-! DEFINITION. The flag computations. `VF` is written to exactly 0 or 1 (10_state.md R11), after the result (42_alu.md R81). -/

namespace Sys2Proof.Machine

open Sys2Proof

/-- The flag as a register value. -/
def flagByte (f : Bool) : Byte := if f then 1 else 0

/-- `VF <- f`, written last (R81, D14; log entry 9). -/
def State.setFlag (s : State) (f : Bool) : State := s.setReg vf (flagByte f)

/-- ADD's carry: the unbounded sum exceeds 255 (R87). -/
def carryOut (a b : Byte) : Bool := decide (a.toNat + b.toNat > 255)

/-- SUB's flag: strictly greater, so equal operands give 0 (R88). -/
def greater (a b : Byte) : Bool := decide (a.toNat > b.toNat)

/-- SHR's flag: the bit shifted out (R89). -/
def droppedBit (a : Byte) : Bool := a.getLsbD 0

/-- ADD I's flag: the unbounded sum exceeds 4095 (43_index_memory.md R95). -/
def beyondMemory (i : Word) (b : Byte) : Bool := decide (i.toNat + b.toNat > 4095)

end Sys2Proof.Machine
end

