-- ==== Sys2Proof/Machine/Alu.lean ====
section
/-! DEFINITION. Register arithmetic and logic, 42_alu.md R80 to R90. None of these faults. -/

namespace Sys2Proof.Machine

open Sys2Proof

/-- LD Vx, kk, R82. -/
def execLdImm (x : Reg) (kk : Byte) (s : State) : Result := .next (s.setReg x kk).advance

/-- ADD Vx, kk, R83: the carry is discarded. -/
def execAddImm (x : Reg) (kk : Byte) (s : State) : Result := .next (s.setReg x (s.reg x + kk)).advance

/-- LD Vx, Vy, R90. -/
def execLdReg (x y : Reg) (s : State) : Result := .next (s.setReg x (s.reg y)).advance

/-- OR Vx, Vy, R84: `VF` is not touched. -/
def execOrReg (x y : Reg) (s : State) : Result := .next (s.setReg x (s.reg x ||| s.reg y)).advance

/-- AND Vx, Vy, R85. -/
def execAndReg (x y : Reg) (s : State) : Result := .next (s.setReg x (s.reg x &&& s.reg y)).advance

/-- XOR Vx, Vy, R86. -/
def execXorReg (x y : Reg) (s : State) : Result := .next (s.setReg x (s.reg x ^^^ s.reg y)).advance

/-- ADD Vx, Vy, R87. -/
def execAddReg (x y : Reg) (s : State) : Result :=
  .next ((s.setReg x (s.reg x + s.reg y)).setFlag (carryOut (s.reg x) (s.reg y))).advance

/-- SUB Vx, Vy, R88. -/
def execSubReg (x y : Reg) (s : State) : Result :=
  .next ((s.setReg x (s.reg x - s.reg y)).setFlag (greater (s.reg x) (s.reg y))).advance

/-- SHR Vx, R89: `y` is carried and ignored (R52). -/
def execShr (x _y : Reg) (s : State) : Result :=
  .next ((s.setReg x (s.reg x >>> 1)).setFlag (droppedBit (s.reg x))).advance

end Sys2Proof.Machine
end

