-- ==== Sys2Proof/Machine/Control.lean ====
section
/-! DEFINITION. Control flow, 41_control_flow.md R70 to R77. None of these writes `VF`. -/

namespace Sys2Proof.Machine

open Sys2Proof

/-- RET, R70: 2 is not added to the popped value. -/
def execRet (s : State) : Result :=
  match s.pop with
  | none => raise (.stackUnderflow s.pc)
  | some (target, t) => .next (t.jump target)

/-- JP nnn, R71. -/
def execJp (nnn : Addr) (s : State) : Result := .next (s.jump (zextAddr nnn))

/-- CALL nnn, R73: pushes `PC + 2` (D5). -/
def execCall (nnn : Addr) (s : State) : Result :=
  match s.push (s.pc + 2) with
  | none => raise (.stackOverflow s.pc)
  | some t => .next (t.jump (zextAddr nnn))

/-- JP V0, nnn, R72: the sum is not reduced modulo 4096 (D7). -/
def execJpV0 (nnn : Addr) (s : State) : Result := .next (s.jump (zextAddr nnn + (s.reg 0).setWidth 16))

/-- SE Vx, kk, R74. -/
def execSeImm (x : Reg) (kk : Byte) (s : State) : Result := .next (s.skipIf (s.reg x == kk))

/-- SNE Vx, kk, R75. -/
def execSneImm (x : Reg) (kk : Byte) (s : State) : Result := .next (s.skipIf (s.reg x != kk))

/-- SE Vx, Vy, R76. -/
def execSeReg (x y : Reg) (s : State) : Result := .next (s.skipIf (s.reg x == s.reg y))

/-- SNE Vx, Vy, R77. -/
def execSneReg (x y : Reg) (s : State) : Result := .next (s.skipIf (s.reg x != s.reg y))

end Sys2Proof.Machine
end

