-- ==== Sys2Proof/Machine/DisplayOps.lean ====
section
/-! DEFINITION. The display instructions, 45_display.md R111 to R115. -/

namespace Sys2Proof.Machine

open Sys2Proof

/-- CLS, R111: `VF` is not written. -/
def execCls (s : State) : Result := .next (s.setDisp (Display.clear s.disp)).advance

/-- DRW Vx, Vy, n, R112: the range check first, then the sprite read at `I` is drawn at the old `(V[x], V[y])`, then `VF` is the
collision. `n` = 0 draws nothing and clears `VF` (D18). -/
def execDrw (x y : Reg) (n : Nibble) (s : State) : Result :=
  s.withRange n.toNat fun base =>
    let drawn := drawSprite (s.reg x).toNat (s.reg y).toNat (Memory.readBytes s.mem base n.toNat) s.disp
    .next ((s.setDisp drawn.1).setFlag drawn.2).advance

end Sys2Proof.Machine
end

