-- ==== Sys2Proof/Machine/Index.lean ====
section
/-! DEFINITION. Index register and memory instructions, 43_index_memory.md R94 to R99. None of the memory instructions changes
`I` (D15; log entry 10). -/

namespace Sys2Proof.Machine

open Sys2Proof

/-- LD I, nnn, R94. -/
def execLdI (nnn : Addr) (s : State) : Result := .next (s.setI (zextAddr nnn)).advance

/-- ADD I, Vx, R95: `I` keeps 16 bits and is never masked to 12 (D12); `VF` is written. -/
def execAddI (x : Reg) (s : State) : Result :=
  .next ((s.setI (s.i + (s.reg x).setWidth 16)).setFlag (beyondMemory s.i (s.reg x))).advance

/-- LD F, Vx, R96: the whole byte is multiplied (D13). -/
def execLdF (x : Reg) (s : State) : Result := .next (s.setI ((s.reg x).setWidth 16 * 5)).advance

/-- LD B, Vx, R97: three digits, checked as a whole range first. -/
def execLdB (x : Reg) (s : State) : Result :=
  s.withRange 3 fun base => .next (s.setMem (Memory.writeBytes s.mem base (bcdDigits (s.reg x)))).advance

/-- LD [I], Vx, R98. -/
def execLdMemVx (x : Reg) (s : State) : Result :=
  s.withRange (x.toNat + 1) fun base => .next (s.setMem (Memory.writeBytes s.mem base (s.regBlock x))).advance

/-- LD Vx, [I], R99. -/
def execLdVxMem (x : Reg) (s : State) : Result :=
  s.withRange (x.toNat + 1) fun base => .next (s.loadBlock base x).advance

end Sys2Proof.Machine
end

