-- ==== Sys2Proof/Machine/TimerKey.lean ====
section
/-! DEFINITION. Timer, random and keypad instructions, 44_timer_random_key.md R102 to R109. None faults, none writes `VF` as a
flag, and none ticks (40_step_cycle.md R67). -/

namespace Sys2Proof.Machine

open Sys2Proof

/-- LD Vx, DT, R102. -/
def execLdVxDT (x : Reg) (s : State) : Result := .next (s.setReg x s.dt).advance

/-- LD DT, Vx, R103. -/
def execLdDTVx (x : Reg) (s : State) : Result := .next (s.setDelay (s.reg x)).advance

/-- LD ST, Vx, R104. -/
def execLdSTVx (x : Reg) (s : State) : Result := .next (s.setSound (s.reg x)).advance

/-- RND Vx, kk, R105: a fresh free byte, masked (log entry 2). -/
def execRnd (x : Reg) (kk : Byte) (s : State) : Result :=
  .next (s.setReg x (Config.freeByte s.draws &&& kk)).countDraw.advance

/-- SKP Vx, R106. -/
def execSkp (x : Reg) (s : State) : Result := .next (s.skipIf (s.keyDown (keyIndex (s.reg x))))

/-- SKNP Vx, R107. -/
def execSknp (x : Reg) (s : State) : Result := .next (s.skipIf (!s.keyDown (keyIndex (s.reg x))))

/-- LD Vx, K, R108: with no key pressed nothing changes, not even `PC`, and the step's result is Waiting (`stepReport`); otherwise
the least pressed index is captured. -/
def execLdVxK (x : Reg) (s : State) : Result :=
  match s.firstKey with
  | none => .next s
  | some k => .next (s.setReg x (BitVec.ofNat 8 k)).advance

end Sys2Proof.Machine
end

