-- ==== Sys2Proof/Machine/Step.lean ====
section
/-! DEFINITION. The step, 40_step_cycle.md R60: fetch, decode, run the handler. It never ticks the timers (R67). -/

namespace Sys2Proof.Machine

open Sys2Proof

/-- One step, R60. Its next state is the state of both `Done` and `Waiting`; `stepReport` in Machine/HostOps.lean tells them
apart (log entry 1). -/
def step (s : State) : Host.Outcome State Fault Refusal :=
  match fetchInstr s with
  | .error f => raise f
  | .ok i => exec i s

/-- The state with a table word stored where the next step fetches. -/
def State.withFetchWord (s : State) (nbits w : Nat) : State := s.placeWord (tableWord nbits w)

end Sys2Proof.Machine
end

