-- ==== Sys2Proof/Machine/HostOps.lean ====
section
/-! DEFINITION. The timer engine and the host's six operations (60_exceptions.md R126 to R134, 70_reset_and_hazards.md R140 to
R143). A history of the machine is one sequence of them (00_scope.md R5), and the sequence is an input. -/

namespace Sys2Proof.Machine

open Sys2Proof

/-- One timer's `tick()`: toward zero, saturating at zero (R126). -/
def tickDown (t : Byte) : Byte := if t = 0 then 0 else t - 1

/-- `tick_timers`, R126: reads and writes `DT` and `ST` and nothing else. -/
def tickTimers (s : State) : State := (s.setDelay (tickDown s.dt)).setSound (tickDown s.st)

/-- `set_keys`, R132: overwrites all 16 entries at once. -/
def setKeys (k : Vector Bool 16) (s : State) : State := { s with key := k }

/-- `read_display`, R133: the whole grid; `Display.linear` addresses its 2048 bits as `xx + yy * 64`. -/
def readDisplay (s : State) : Display := s.disp

/-- `load_program`, R143: the image at 0x200, or `none` (AddressOutOfRange, nothing written) when it is larger than 3584 bytes. -/
def loadProgram (image : List Byte) (s : State) : Option State :=
  if imageFits image then some (s.setMem (Memory.writeBytes s.mem Config.programBase image)) else none

/-- `reset`, R140: all architectural state to its reset value. The model's count of random draws is kept, so that a run after a
reset draws fresh free bytes (log entry 3). -/
def hostReset (s : State) : State := { State.reset with draws := s.draws }

/-- Whether the step about to be taken is LD Vx, K with no key pressed (40_step_cycle.md R66). -/
def waits (s : State) : Bool :=
  match fetchInstr s with
  | .ok (.ldVxK _) => s.firstKey.isNone
  | _ => false

/-- What `step` returns to the host, R66. -/
inductive StepReport where
  | done
  | waiting
  | fault (f : Fault)
  | refused (r : Refusal)
  deriving DecidableEq, Repr

/-- The result of the step taken from `s`, R66. -/
def stepReport (s : State) : StepReport :=
  match step s with
  | .next _ => if waits s then .waiting else .done
  | .fault f => .fault f
  | .refused r => .refused r

/-- The state after the step taken from `s`; a faulting step changes nothing (60_exceptions.md R119). -/
def stepState (s : State) : State :=
  match step s with
  | .next t => t
  | .fault _ => s
  | .refused _ => s

/-- The six operations of R134. -/
inductive HostOp where
  | reset
  | loadProgram (image : List Byte)
  | setKeys (k : Vector Bool 16)
  | step
  | tickTimers
  | readDisplay
  deriving DecidableEq, Repr

/-- Where the host stands in the protocol of R142 and R143: before the first reset, after a reset, after a program load, after a
step. It limits what the HOST may do and is no state of the core. -/
inductive Phase where
  | off
  | fresh
  | loaded
  | running
  deriving DecidableEq, Repr

/-- The core together with the host's place in the protocol. -/
structure Session where
  core : State
  phase : Phase
  deriving DecidableEq, Repr

/-- What an operation returns, R134. -/
inductive HostReply where
  | nothing
  | loadOk
  /-- The load is refused as AddressOutOfRange, fault code 4 (R143). -/
  | loadOutOfRange
  | stepped (r : StepReport)
  | pixels (d : Display)
  /-- The spec gives the host no such move here (R143, 93_implementation_defined.md U13). Safe. -/
  | noSuchMove
  deriving DecidableEq, Repr

/-- `load_program` within the protocol: only between a reset and the first step, once (R143, D23). -/
def hostLoad (image : List Byte) (h : Session) : HostReply × Session :=
  if h.phase = .fresh then
    match loadProgram image h.core with
    | some t => (.loadOk, { core := t, phase := .loaded })
    | none => (.loadOutOfRange, h)
  else (.noSuchMove, h)

/-- An operation after the first reset, when every operation but the load is legal (R134). -/
def hostOpOn (op : HostOp) (h : Session) : HostReply × Session :=
  match op with
  | .reset => (.nothing, { core := hostReset h.core, phase := .fresh })
  | .loadProgram image => hostLoad image h
  | .setKeys k => (.nothing, { h with core := setKeys k h.core })
  | .step => (.stepped (stepReport h.core), { core := stepState h.core, phase := .running })
  | .tickTimers => (.nothing, { h with core := tickTimers h.core })
  | .readDisplay => (.pixels (readDisplay h.core), h)

/-- One operation of the host. Before the first reset only `reset` is a move (R142, U13). -/
def hostOp (op : HostOp) (h : Session) : HostReply × Session :=
  if h.phase = .off ∧ op ≠ .reset then (.noSuchMove, h) else hostOpOn op h

/-- A sequence of operations, in the order the host issues them (R5, R40). -/
def hostRun : List HostOp → Session → List HostReply × Session
  | [], h => ([], h)
  | op :: ops, h =>
    let r := hostOp op h
    let rest := hostRun ops r.2
    (r.1 :: rest.1, rest.2)

/-- A step and a tick requested in the same instant: the step first, then the tick (60_exceptions.md R129, D2). -/
def stepWithTick (h : Session) : List HostReply × Session := hostRun [.step, .tickTimers] h

end Sys2Proof.Machine
end

