-- ==== Sys2Proof/Safety.lean ====
section
/-! DEFINITION. The terms claims use: the invariant of 10_state.md R25, what a step leaves unchanged (R26), a finished program
(70_reset_and_hazards.md R152) and a safe run (93_implementation_defined.md U14). -/

namespace Sys2Proof.Machine

open Sys2Proof

/-- The stack part of R25: every entry in use is in 2 to 4096. -/
abbrev State.StackOk (s : State) : Prop :=
  ∀ k : Fin 16, k.val < s.sp.val → 2 ≤ (s.stack[k]).toNat ∧ (s.stack[k]).toNat ≤ 4096

/-- The invariant of R25: `PC` is at most 4350, the entries in use are return addresses, and memory is in its canonical form. The
other bounds of R25 are in the types. -/
abbrev State.Inv (s : State) : Prop := s.pc.toNat ≤ 4350 ∧ s.StackOk ∧ Memory.wf s.mem = true

/-- The pieces of state beside the general registers, `PC` and the keys. -/
inductive Piece where
  | index
  | delay
  | sound
  | stack
  | memory
  | display
  | draws
  deriving DecidableEq, Repr

/-- The piece is the same in both states; memory byte by byte. -/
def Kept (s t : State) : Piece → Prop
  | .index => t.i = s.i
  | .delay => t.dt = s.dt
  | .sound => t.st = s.st
  | .stack => t.sp = s.sp ∧ t.stack = s.stack
  | .memory => ∀ a, Memory.read t.mem a = Memory.read s.mem a
  | .display => t.disp = s.disp
  | .draws => t.draws = s.draws

/-- The frame of an instruction: every register not in `regs` and every piece not in `written` is unchanged, and so are the keys
(no instruction changes them, R20). `PC` may change. -/
def Frame (s t : State) (regs : List Reg) (written : List Piece) : Prop :=
  (∀ r, r ∉ regs → t.reg r = s.reg r) ∧ (∀ p, p ∉ written → Kept s t p) ∧ t.key = s.key

/-- The registers `V[0]` to `V[x]`. -/
def regsUpTo (x : Reg) : List Reg := (List.range (x.toNat + 1)).map (BitVec.ofNat 4)

/-- The general registers an instruction may write: the rows `V[x]`, `V[0..x]` and `VF` of 10_state.md R26. -/
def writtenRegs : Instr → List Reg
  | .cls | .ret | .jp _ | .call _ | .seImm _ _ | .sneImm _ _ | .seReg _ _ | .sneReg _ _ => []
  | .ldImm x _ | .addImm x _ | .ldReg x _ | .orReg x _ | .andReg x _ | .xorReg x _ => [x]
  | .addReg x _ | .subReg x _ | .shr x _ => [x, vf]
  | .ldI _ | .jpV0 _ => []
  | .rnd x _ => [x]
  | .drw _ _ _ => [vf]
  | .skp _ | .sknp _ => []
  | .ldVxDT x | .ldVxK x => [x]
  | .ldDTVx _ | .ldSTVx _ => []
  | .addI _ => [vf]
  | .ldF _ | .ldB _ | .ldMemVx _ => []
  | .ldVxMem x => regsUpTo x

/-- The other pieces of state an instruction may write, R26; RND also counts its draw (log entry 2). -/
def writtenPieces : Instr → List Piece
  | .cls | .drw _ _ _ => [.display]
  | .ret | .call _ => [.stack]
  | .ldI _ | .addI _ | .ldF _ => [.index]
  | .rnd _ _ => [.draws]
  | .ldDTVx _ => [.delay]
  | .ldSTVx _ => [.sound]
  | .ldB _ | .ldMemVx _ => [.memory]
  | .jp _ | .jpV0 _ | .seImm _ _ | .sneImm _ _ | .seReg _ _ | .sneReg _ _ | .skp _ | .sknp _ => []
  | .ldImm _ _ | .addImm _ _ | .ldReg _ _ | .orReg _ _ | .andReg _ _ | .xorReg _ _ => []
  | .addReg _ _ | .subReg _ _ | .shr _ _ | .ldVxDT _ | .ldVxK _ | .ldVxMem _ => []

/-- A 1 bit of the sprite lands on the display cell `(xx, yy)`: sprite pixel `(c, r)` is bit `7 - c` of byte `r` (45_display.md
R115) and acts on column `(vx + c) mod 64` and row `(vy + r) mod 32` (R114). -/
def SpriteCovers (vx vy : Nat) (rows : List Byte) (xx : Fin 64) (yy : Fin 32) : Prop :=
  ∃ r c, r < rows.length ∧ c < 8 ∧ (rows.getD r 0).getLsbD (7 - c) = true ∧
    xx.val = (vx + c) % 64 ∧ yy.val = (vy + r) % 32

/-- The program is finished: the word at `PC` is the jump to `PC` itself (R152, D28). A convention about programs. -/
def finished (s : State) : Bool :=
  match fetchInstr s with
  | .ok (.jp nnn) => zextAddr nnn == s.pc
  | _ => false

/-- A safe run of `k` steps: none of them faults (R122, U14). -/
def SafeSteps (s : State) : Nat → Bool
  | 0 => true
  | k + 1 =>
    match step s with
    | .next t => SafeSteps t k
    | .fault _ => false
    | .refused _ => false

/-- A reply that does not count against a run: no fault and no move the spec does not give (U13, U14). -/
def HostReply.isSafe : HostReply → Bool
  | .stepped (.fault _) => false
  | .stepped (.refused _) => false
  | .loadOutOfRange => false
  | .noSuchMove => false
  | _ => true

/-- A safe schedule of host operations. -/
def SafeSchedule (ops : List HostOp) (h : Session) : Bool := (hostRun ops h).1.all HostReply.isSafe

end Sys2Proof.Machine
end

