-- ==== Sys2Proof/Certificates/Slice0/Obligations.lean ====
section
/-! DEFINITION. The statements for the provers, each from a numbered rule of spec/ or a section of it. A statement about a next
state gives the whole next state: the values the rule names, `PC`, and a `Frame` for everything else. -/

open Sys2Proof Sys2Proof.Machine

/-! ### Encoding -/

/-- 30_encoding.md sections 2 to 5: no bit of an operand is dropped. The opcode values are from general knowledge (N1; log entry
6). -/
def Obligations.DecodeOfEncode : Prop := ∀ i, decode (encode i) = .instr i

/-- R58: re-encoding what a word decodes to gives the word, so no two words decode to the same instruction; and a word that is no
instruction yields the distinguished unknown tag, so the decoder never fails. -/
def Obligations.EncodeOfDecode : Prop :=
  ∀ w, (∃ i, decode w = .instr i ∧ encode i = w ∧ ∀ u, decode u = .instr i → u = w) ∨ decode w = .unknown w

/-- 30_encoding.md section 5: a word is a row's instruction exactly when `w & mask = match`. The values are from general knowledge
(N1; log entry 6), and matching on every non-operand bit is the spec's choice D22 (log entry 8). -/
def Obligations.RowMatchesExactlyItsInstr : Prop :=
  ∀ w, ∀ r ∈ opcodeRows, r.matchesWord w = true ↔ ∃ i, decode w = .instr i ∧ rowOf i = r

/-- 30_encoding.md section 7: the unknown words, class by class. Exact matching is the spec's choice D22 (log entry 8). The class
nibbles and the second bytes are numeric opcode values, most of them from general knowledge (N1; log entry 6). -/
def Obligations.UnknownWordsByClass : Prop :=
  ∀ w, decode w = .unknown w ↔
    (opField w = 0x0 ∧ nnnField w ≠ 0x0E0 ∧ nnnField w ≠ 0x0EE) ∨
    (opField w = 0x5 ∧ nField w ≠ 0x0) ∨
    (opField w = 0x8 ∧ 7 ≤ (nField w).toNat) ∨
    (opField w = 0x9 ∧ nField w ≠ 0x0) ∨
    (opField w = 0xE ∧ kkField w ∉ [0x9E, 0xA1]) ∨
    (opField w = 0xF ∧ kkField w ∉ [0x07, 0x0A, 0x15, 0x18, 0x1E, 0x29, 0x33, 0x55, 0x65])

/-- 95_test_vectors.md: words of each family decode to the instruction they stand for (E3, E4, E5, E9 and the tables). The source
shows 00E0, 6A02, A200 and D123's class; the other values are from general knowledge (N1; log entry 6). That 8127 is unknown is
the spec's choice D22 (log entry 8). -/
def Obligations.SpecWordsDecode : Prop :=
  decode 0x00E0 = .instr .cls ∧ decode 0x1ABC = .instr (.jp 0xABC) ∧ decode 0x6A02 = .instr (.ldImm 0xA 0x02) ∧
  decode 0x8AB4 = .instr (.addReg 0xA 0xB) ∧ decode 0xA200 = .instr (.ldI 0x200) ∧ decode 0xC20F = .instr (.rnd 0x2 0x0F) ∧
  decode 0xD123 = .instr (.drw 0x1 0x2 0x3) ∧ decode 0xE49E = .instr (.skp 0x4) ∧ decode 0xF365 = .instr (.ldVxMem 0x3) ∧
  decode 0x8127 = .unknown 0x8127

/-! ### The step and the faults -/

/-- 40_step_cycle.md section 1: a step within the fetch bound runs the decoded instruction; nothing is added around it. -/
def Obligations.StepRunsDecodedInstr : Prop :=
  ∀ s i, s.pc.toNat ≤ 4094 → decode (s.wordAt s.pc.toNat) = .instr i → step s = exec i s

/-- R33: the fetched word is `MEM[PC] * 256 + MEM[PC + 1]`, so the bytes 6A 02 set register A to 2 and A2 00 sets `I` to 0x200. -/
def Obligations.FetchedWordIsBigEndian : Prop :=
  (∀ s, s.pc.toNat ≤ 4094 → ∃ w, fetch s = .ok w ∧
    w.toNat = (Memory.read s.mem s.pc.toNat).toNat * 256 + (Memory.read s.mem (s.pc.toNat + 1)).toNat) ∧
  decodeBytes 0x6A 0x02 = .instr (.ldImm 0xA 0x02) ∧ decodeBytes 0xA2 0x00 = .instr (.ldI 0x200)

/-- 40_step_cycle.md section 2: a step that begins with `PC` above 4094 is AddressOutOfRange. The reported address is the spec's
choice D9 (log entry 16). -/
def Obligations.FetchBeyond4094Faults : Prop :=
  ∀ s, 4094 < s.pc.toNat →
    step s = .fault (.addressOutOfRange s.pc (if s.pc.toNat = 4095 then 4096 else s.pc.toNat))

/-- 40_step_cycle.md section 3: a word of no row of the table is UnknownOpcode, with `PC` and the word. Which words those are is
30_encoding.md section 7: exact matching is the spec's choice D22 (log entry 8), and the table's values are from general knowledge
(N1; log entry 6). -/
def Obligations.UnknownWordFaults : Prop :=
  ∀ s, s.pc.toNat ≤ 4094 → isInstrWord (s.wordAt s.pc.toNat) = false →
    step s = .fault (.unknownOpcode s.pc (s.wordAt s.pc.toNat))

/-- 60_exceptions.md section 1: which instruction raises which fault, exactly when; the other 26 raise none. The payloads are the
spec's choice D9 (log entry 16), and the check of the whole range its choice D16 (log entry 11). That DRW with `n` = 0 never
faults is its choice D18 (log entry 22), that no sprite coordinate faults D17 (log entry 7), and that no key index faults D19
(log entry 12). -/
def Obligations.ExecFaultsExactlyWhen : Prop :=
  ∀ i s f, exec i s = .fault f ↔
    ((∃ nnn, i = .call nnn) ∧ s.sp.val = 16 ∧ f = .stackOverflow s.pc) ∨
    (i = .ret ∧ s.sp.val = 0 ∧ f = .stackUnderflow s.pc) ∨
    (f = .addressOutOfRange s.pc (max s.i.toNat 4096) ∧
      ((∃ x y n, i = .drw x y n ∧ 1 ≤ n.toNat ∧ 4095 < s.i.toNat + n.toNat - 1) ∨
       ((∃ x, i = .ldB x) ∧ 4095 < s.i.toNat + 2) ∨
       (∃ x, (i = .ldMemVx x ∨ i = .ldVxMem x) ∧ 4095 < s.i.toNat + x.toNat)))

/-- 30_encoding.md section 5 and 40_step_cycle.md section 4: every instruction has a handler, so nothing is refused. -/
def Obligations.NothingIsRefused : Prop := ∀ s r, step s ≠ .refused r ∧ ∀ i, exec i s ≠ .refused r

/-- 60_exceptions.md section 1 (precise faults, D8; no fault latch, D11; log entry 11): a faulting step leaves the core as it was
and the next step reports the same fault. The phase, before and after, is the model's protocol (U13; log entry 15): a step that
faults counts as the first step. -/
def Obligations.FaultLeavesStateUnchanged : Prop :=
  ∀ h f, h.phase ≠ .off → step h.core = .fault f →
    hostOp .step h = (.stepped (.fault f), { core := h.core, phase := .running }) ∧
    (hostOp .step (hostOp .step h).2).1 = .stepped (.fault f)

/-! ### Invariants and what a step may write -/

/-- 10_state.md section 11: the invariant holds after reset. -/
def Obligations.ResetMeetsInv : Prop := State.reset.Inv

/-- 10_state.md section 11: every step keeps the invariant, from every state that meets it. The canonical form of memory is the
model's own clause (log entry 4). -/
def Obligations.StepKeepsInv : Prop := ∀ s t, s.Inv → step s = .next t → t.Inv

/-- 10_state.md section 11: "These hold after reset and after every operation": every schedule of host operations keeps the
invariant. -/
def Obligations.EveryScheduleKeepsInv : Prop := ∀ ops h, h.core.Inv → (hostRun ops h).2.core.Inv

/-- 10_state.md section 12, the column "Written by": an instruction changes no register and no piece of state beyond its row, and
RET writes `SP` only. That RET leaves the entries in place is the spec's choice D4 (log entry 18), and that LD [I] and LD Vx, [I]
leave `I` unchanged its choice D15 (log entry 10). -/
def Obligations.ExecChangesOnlyListedState : Prop :=
  ∀ i s t, exec i s = .next t → Frame s t (writtenRegs i) (writtenPieces i) ∧ (i = .ret → t.stack = s.stack)

/-- 10_state.md section 1: the five flag writers write `VF` to exactly 0 or 1. That the flag is the last write is the spec's choice
D14 (log entry 9). -/
def Obligations.FlagIsZeroOrOne : Prop :=
  ∀ i s t, (∃ x y n, i = .addReg x y ∨ i = .subReg x y ∨ i = .shr x y ∨ i = .addI x ∨ i = .drw x y n) →
    exec i s = .next t → t.reg vf = 0 ∨ t.reg vf = 1

/-- 40_step_cycle.md section 8: a step never ticks; a timer changes in a step only by its own LD, to the register's value. -/
def Obligations.StepNeverTicks : Prop :=
  ∀ s t, step s = .next t →
    (t.dt = s.dt ∨ ∃ x, fetchInstr s = .ok (.ldDTVx x) ∧ t.dt = s.reg x) ∧
    (t.st = s.st ∨ ∃ x, fetchInstr s = .ok (.ldSTVx x) ∧ t.st = s.reg x)

/-- 41_control_flow.md section 5: CALL takes the depth up by one, RET down by one, every other instruction leaves it. -/
def Obligations.StackDepthFollowsCallsAndReturns : Prop :=
  ∀ i s t, exec i s = .next t →
    ((∃ nnn, i = .call nnn) → t.sp.val = s.sp.val + 1) ∧ (i = .ret → t.sp.val + 1 = s.sp.val) ∧
    ((∀ nnn, i ≠ .call nnn) → i ≠ .ret → t.sp = s.sp)

/-! ### Control flow -/

/-- 41_control_flow.md section 2: JP nnn, whatever `nnn` is. -/
def Obligations.JumpGoesToAddress : Prop :=
  ∀ nnn s, ∃ t, exec (.jp nnn) s = .next t ∧ t.pc.toNat = nnn.toNat ∧ Frame s t [] []

/-- 41_control_flow.md section 2: JP V0, nnn adds register 0 and does not reduce the sum (D7; log entry 14). -/
def Obligations.JumpV0AddsRegister0 : Prop :=
  ∀ nnn s, ∃ t, exec (.jpV0 nnn) s = .next t ∧ t.pc.toNat = nnn.toNat + (s.reg 0).toNat ∧ Frame s t [] []

/-- 41_control_flow.md section 3: CALL with room pushes `PC + 2` (D5; log entry 18) and jumps; the other entries stay. -/
def Obligations.CallPushesAndJumps : Prop :=
  ∀ nnn s, s.sp.val < 16 → ∃ t, exec (.call nnn) s = .next t ∧ t.pc.toNat = nnn.toNat ∧ t.sp.val = s.sp.val + 1 ∧
    (∀ k : Fin 16, t.stack[k] = if k.val = s.sp.val then s.pc + 2 else s.stack[k]) ∧ Frame s t [] [.stack]

/-- 41_control_flow.md section 1: RET pops the newest entry into `PC` with nothing added, and leaves the entries in place: the
spec's choices D5 and D4 (log entry 18). -/
def Obligations.RetPopsIntoPc : Prop :=
  ∀ s, 0 < s.sp.val → ∃ t, exec .ret s = .next t ∧ t.sp.val + 1 = s.sp.val ∧ t.stack = s.stack ∧
    (∀ k : Fin 16, k.val + 1 = s.sp.val → t.pc = s.stack[k]) ∧ Frame s t [] [.stack]

/-- 41_control_flow.md sections 1 and 3 (90_conflicts.md C2): RET comes back to the instruction after the CALL, at the same
depth. -/
def Obligations.CallThenRetComesBack : Prop :=
  ∀ nnn s, s.sp.val < 16 → ∃ t u, exec (.call nnn) s = .next t ∧ exec .ret t = .next u ∧
    u.pc = s.pc + 2 ∧ u.sp = s.sp ∧ Frame s u [] [.stack] ∧ ∀ k : Fin 16, k.val < s.sp.val → u.stack[k] = s.stack[k]

/-- 41_control_flow.md section 4: SE Vx, kk and SNE Vx, kk. -/
def Obligations.SkipsOnImmediate : Prop :=
  ∀ x kk s,
    (∃ t, exec (.seImm x kk) s = .next t ∧ t.pc = (if s.reg x = kk then s.pc + 4 else s.pc + 2) ∧ Frame s t [] []) ∧
    (∃ t, exec (.sneImm x kk) s = .next t ∧ t.pc = (if s.reg x = kk then s.pc + 2 else s.pc + 4) ∧ Frame s t [] [])

/-- 41_control_flow.md section 4: SE Vx, Vy and SNE Vx, Vy. -/
def Obligations.SkipsOnRegisters : Prop :=
  ∀ x y s,
    (∃ t, exec (.seReg x y) s = .next t ∧ t.pc = (if s.reg x = s.reg y then s.pc + 4 else s.pc + 2) ∧ Frame s t [] []) ∧
    (∃ t, exec (.sneReg x y) s = .next t ∧ t.pc = (if s.reg x = s.reg y then s.pc + 2 else s.pc + 4) ∧ Frame s t [] [])

/-- 44_timer_random_key.md section 3: SKP Vx and SKNP Vx test the snapshot at `V[x] mod 16` (D19; log entry 12). -/
def Obligations.SkipsOnKey : Prop :=
  ∀ x s, ∀ k : Fin 16, k.val = (s.reg x).toNat % 16 →
    (∃ t, exec (.skp x) s = .next t ∧ t.pc = (if s.key[k] = true then s.pc + 4 else s.pc + 2) ∧ Frame s t [] []) ∧
    (∃ t, exec (.sknp x) s = .next t ∧ t.pc = (if s.key[k] = true then s.pc + 2 else s.pc + 4) ∧ Frame s t [] [])

/-! ### Register arithmetic and logic -/

/-- R82: LD Vx, kk, its encoding and its effect. -/
def Obligations.SetImmediate : Prop :=
  (∀ w, w &&& 0xF000 = 0x6000 ↔ decode w = .instr (.ldImm (xField w) (kkField w))) ∧
  decode 0x6A02 = .instr (.ldImm 0xA 0x02) ∧
  ∀ x kk s, ∃ t, exec (.ldImm x kk) s = .next t ∧ t.reg x = kk ∧ t.pc = s.pc + 2 ∧ Frame s t [x] []

/-- 42_alu.md section 2: ADD Vx, kk; the carry is discarded and `VF` keeps its value. -/
def Obligations.AddImmediate : Prop :=
  ∀ x kk s, ∃ t, exec (.addImm x kk) s = .next t ∧ (t.reg x).toNat = ((s.reg x).toNat + kk.toNat) % 256 ∧
    t.pc = s.pc + 2 ∧ Frame s t [x] []

/-- 42_alu.md section 5: LD Vx, Vy. -/
def Obligations.CopyRegister : Prop :=
  ∀ x y s, ∃ t, exec (.ldReg x y) s = .next t ∧ t.reg x = s.reg y ∧ t.pc = s.pc + 2 ∧ Frame s t [x] []

/-- 42_alu.md section 3: OR, AND and XOR, bit by bit; `VF` is not touched. -/
def Obligations.BitwiseCombine : Prop :=
  ∀ x y s,
    (∃ t, exec (.orReg x y) s = .next t ∧ (∀ k, (t.reg x).getLsbD k = ((s.reg x).getLsbD k || (s.reg y).getLsbD k)) ∧
      t.pc = s.pc + 2 ∧ Frame s t [x] []) ∧
    (∃ t, exec (.andReg x y) s = .next t ∧ (∀ k, (t.reg x).getLsbD k = ((s.reg x).getLsbD k && (s.reg y).getLsbD k)) ∧
      t.pc = s.pc + 2 ∧ Frame s t [x] []) ∧
    (∃ t, exec (.xorReg x y) s = .next t ∧ (∀ k, (t.reg x).getLsbD k = ((s.reg x).getLsbD k ^^ (s.reg y).getLsbD k)) ∧
      t.pc = s.pc + 2 ∧ Frame s t [x] [])

/-- 42_alu.md section 4: ADD Vx, Vy. For `x` = 15 the flag is what remains (D14; log entry 9). -/
def Obligations.AddRegisters : Prop :=
  ∀ x y s, ∃ t, exec (.addReg x y) s = .next t ∧
    (x ≠ vf → (t.reg x).toNat = ((s.reg x).toNat + (s.reg y).toNat) % 256) ∧
    (t.reg vf).toNat = (if 255 < (s.reg x).toNat + (s.reg y).toNat then 1 else 0) ∧
    t.pc = s.pc + 2 ∧ Frame s t [x, vf] []

/-- 42_alu.md section 4: SUB Vx, Vy; the flag is strictly greater. For `x` = 15 the flag is what remains (D14; log entry 9). -/
def Obligations.SubtractRegisters : Prop :=
  ∀ x y s, ∃ t, exec (.subReg x y) s = .next t ∧
    (x ≠ vf → (t.reg x).toNat = ((s.reg x).toNat + 256 - (s.reg y).toNat) % 256) ∧
    (t.reg vf).toNat = (if (s.reg y).toNat < (s.reg x).toNat then 1 else 0) ∧
    t.pc = s.pc + 2 ∧ Frame s t [x, vf] []

/-- 42_alu.md section 4: SHR Vx; `y` is ignored. For `x` = 15 the flag is what remains (D14; log entry 9). -/
def Obligations.ShiftRight : Prop :=
  ∀ x y s, (∃ t, exec (.shr x y) s = .next t ∧
    (x ≠ vf → (t.reg x).toNat = (s.reg x).toNat / 2) ∧ (t.reg vf).toNat = (s.reg x).toNat % 2 ∧
    t.pc = s.pc + 2 ∧ Frame s t [x, vf] []) ∧
    ∀ z, exec (.shr x z) s = exec (.shr x y) s

/-! ### The index register and memory -/

/-- R94: LD I, nnn, its encoding and its effect. -/
def Obligations.SetIndex : Prop :=
  (∀ w, w &&& 0xF000 = 0xA000 ↔ decode w = .instr (.ldI (nnnField w))) ∧
  decode 0xA200 = .instr (.ldI 0x200) ∧
  ∀ nnn s, ∃ t, exec (.ldI nnn) s = .next t ∧ t.i.toNat = nnn.toNat ∧ t.pc = s.pc + 2 ∧ Frame s t [] [.index]

/-- 43_index_memory.md section 1: ADD I, Vx wraps modulo 65536 and writes `VF` from the unbounded sum. That `I` is not masked to 12
bits is the spec's choice D12 (log entry 14). -/
def Obligations.AddToIndex : Prop :=
  ∀ x s, ∃ t, exec (.addI x) s = .next t ∧ t.i.toNat = (s.i.toNat + (s.reg x).toNat) % 65536 ∧
    (t.reg vf).toNat = (if 4095 < s.i.toNat + (s.reg x).toNat then 1 else 0) ∧
    t.pc = s.pc + 2 ∧ Frame s t [vf] [.index]

/-- 43_index_memory.md section 1: LD F, Vx multiplies the whole byte (D13; log entry 10). -/
def Obligations.FontAddress : Prop :=
  ∀ x s, ∃ t, exec (.ldF x) s = .next t ∧ t.i.toNat = 5 * (s.reg x).toNat ∧ t.pc = s.pc + 2 ∧ Frame s t [] [.index]

/-- 43_index_memory.md section 2: LD B, Vx in range stores the three digits at `I`, `I + 1`, `I + 2` and no other byte. -/
def Obligations.StoreDigits : Prop :=
  ∀ x s, s.i.toNat + 2 ≤ 4095 → ∃ t, exec (.ldB x) s = .next t ∧
    (Memory.read t.mem s.i.toNat).toNat = (s.reg x).toNat / 100 ∧
    (Memory.read t.mem (s.i.toNat + 1)).toNat = (s.reg x).toNat / 10 % 10 ∧
    (Memory.read t.mem (s.i.toNat + 2)).toNat = (s.reg x).toNat % 10 ∧
    (∀ a, a < s.i.toNat ∨ s.i.toNat + 2 < a → Memory.read t.mem a = Memory.read s.mem a) ∧
    t.pc = s.pc + 2 ∧ Frame s t [] [.memory]

/-- 43_index_memory.md section 2: LD [I], Vx in range stores `V[0]` to `V[x]` from `I` on and no other byte; `I` is unchanged (D15;
log entry 10). -/
def Obligations.StoreRegisters : Prop :=
  ∀ x s, s.i.toNat + x.toNat ≤ 4095 → ∃ t, exec (.ldMemVx x) s = .next t ∧
    (∀ j : Reg, j.toNat ≤ x.toNat → Memory.read t.mem (s.i.toNat + j.toNat) = s.reg j) ∧
    (∀ a, a < s.i.toNat ∨ s.i.toNat + x.toNat < a → Memory.read t.mem a = Memory.read s.mem a) ∧
    t.pc = s.pc + 2 ∧ Frame s t [] [.memory]

/-- 43_index_memory.md section 3: LD Vx, [I] in range loads `V[0]` to `V[x]` from `I` on; the registers above `x`, `I` and memory
are unchanged (D15; log entry 10). -/
def Obligations.LoadRegisters : Prop :=
  ∀ x s, s.i.toNat + x.toNat ≤ 4095 → ∃ t, exec (.ldVxMem x) s = .next t ∧
    (∀ j : Reg, t.reg j = if j.toNat ≤ x.toNat then Memory.read s.mem (s.i.toNat + j.toNat) else s.reg j) ∧
    t.pc = s.pc + 2 ∧ Frame s t (regsUpTo x) []

/-- 20_memory.md section 8: code stored by LD [I], Vx where the next step fetches is what that step fetches (D26; log entry 19). -/
def Obligations.StoredCodeIsFetched : Prop :=
  ∀ x s, s.i = s.pc + 2 → 1 ≤ x.toNat → s.i.toNat + x.toNat ≤ 4095 →
    ∃ t, exec (.ldMemVx x) s = .next t ∧ fetch t = .ok (wordOfBytes (s.reg 0) (s.reg 1))

/-- The model's own form of memory (log entry 4; 20_memory.md section 7): two canonical memories that read the same are the
same. -/
def Obligations.CanonicalMemoryIsUnique : Prop :=
  ∀ m n : Memory, Memory.wf m = true → Memory.wf n = true → (∀ a, Memory.read m a = Memory.read n a) → m = n

/-! ### Timers, random, keys -/

/-- 44_timer_random_key.md section 1: the three timer moves. -/
def Obligations.TimerMoves : Prop :=
  ∀ x s,
    (∃ t, exec (.ldVxDT x) s = .next t ∧ t.reg x = s.dt ∧ t.pc = s.pc + 2 ∧ Frame s t [x] []) ∧
    (∃ t, exec (.ldDTVx x) s = .next t ∧ t.dt = s.reg x ∧ t.pc = s.pc + 2 ∧ Frame s t [] [.delay]) ∧
    (∃ t, exec (.ldSTVx x) s = .next t ∧ t.st = s.reg x ∧ t.pc = s.pc + 2 ∧ Frame s t [] [.sound])

/-- 44_timer_random_key.md section 2: RND is the free byte of this draw under the mask, so a bit outside the mask is 0, and the next
draw is another free byte. The counter is the model's own (D21; log entry 2). -/
def Obligations.RandomIsMasked : Prop :=
  ∀ x kk s, ∃ t, exec (.rnd x kk) s = .next t ∧ t.reg x = Config.freeByte s.draws &&& kk ∧
    (∀ k, kk.getLsbD k = false → (t.reg x).getLsbD k = false) ∧ t.draws = s.draws + 1 ∧
    t.pc = s.pc + 2 ∧ Frame s t [x] [.draws]

/-- 44_timer_random_key.md section 3: LD Vx, K changes nothing at all with no key pressed, and otherwise captures the least pressed
index (D20; log entry 13). -/
def Obligations.WaitForKey : Prop :=
  ∀ x s,
    ((∀ k : Fin 16, s.key[k] = false) → exec (.ldVxK x) s = .next s) ∧
    ∀ k : Fin 16, s.key[k] = true → (∀ j : Fin 16, j < k → s.key[j] = false) →
      ∃ t, exec (.ldVxK x) s = .next t ∧ (t.reg x).toNat = k.val ∧ t.pc = s.pc + 2 ∧ Frame s t [x] []

/-- 40_step_cycle.md section 7: a step reports Waiting exactly when the instruction is LD Vx, K and no key is pressed, and then it
changes nothing (D20; log entry 1). -/
def Obligations.WaitingExactlyWhen : Prop :=
  ∀ s,
    (stepReport s = .waiting ↔ s.pc.toNat ≤ 4094 ∧ (∃ x, decode (s.wordAt s.pc.toNat) = .instr (.ldVxK x)) ∧
      ∀ k : Fin 16, s.key[k] = false) ∧
    (stepReport s = .waiting → step s = .next s)

/-! ### The display -/

/-- 45_display.md section 2: CLS, its encoding and its effect. That no other word than 00E0 is CLS is the spec's choice D22 (N4; log
entry 8). -/
def Obligations.ClearScreen : Prop :=
  (∀ w, w &&& 0xFFFF = 0x00E0 ↔ decode w = .instr .cls) ∧
  ∀ s, ∃ t, exec .cls s = .next t ∧ (∀ xx yy, Display.pixel t.disp xx yy = false) ∧ t.pc = s.pc + 2 ∧
    Frame s t [] [.display]

/-- 45_display.md section 1: the two primitives, cell by cell and by linear index, and that only CLS clears and only DRW toggles.
Which cells DRW toggles is section 3, where wrapping is the spec's choice D17 (log entry 7). -/
def Obligations.DisplayPrimitives : Prop :=
  (∀ d xx yy, Display.pixel (Display.clear d) xx yy = false) ∧
  (∀ d xx yy, (Display.toggle d xx yy).2 = Display.pixel d xx yy ∧
    ∀ a b, Display.pixel (Display.toggle d xx yy).1 a b =
      if a = xx ∧ b = yy then !Display.pixel d xx yy else Display.pixel d a b) ∧
  (∀ d xx yy, ∀ k : Fin 2048, k.val = xx.val + yy.val * 64 → Display.linear d k = Display.pixel d xx yy) ∧
  ∀ i s t, exec i s = .next t → t.disp ≠ s.disp →
    (i = .cls ∧ t.disp = Display.clear s.disp) ∨
    ∃ x y n, i = .drw x y n ∧ ∃ cells : List (Fin 64 × Fin 32), cells.Nodup ∧
      (∀ q, q ∈ cells ↔ SpriteCovers (s.reg x).toNat (s.reg y).toNat
        (Memory.readBytes s.mem s.i.toNat n.toNat) q.1 q.2) ∧
      t.disp = cells.foldl (fun d q => (Display.toggle d q.1 q.2).1) s.disp

/-- 45_display.md sections 3 and 4: DRW in range flips exactly the cells a 1 bit of the sprite lands on, and `VF` is 1 exactly when
one of them was set. Wrapping is the spec's choice D17 (log entry 7), `n` = 0 its choice D18 (log entry
22). -/
def Obligations.DrawSprite : Prop :=
  ∀ x y n s, n = 0 ∨ s.i.toNat + n.toNat - 1 ≤ 4095 → ∃ t, exec (.drw x y n) s = .next t ∧
    (∀ xx yy, SpriteCovers (s.reg x).toNat (s.reg y).toNat (Memory.readBytes s.mem s.i.toNat n.toNat) xx yy →
      Display.pixel t.disp xx yy = !Display.pixel s.disp xx yy) ∧
    (∀ xx yy, ¬ SpriteCovers (s.reg x).toNat (s.reg y).toNat (Memory.readBytes s.mem s.i.toNat n.toNat) xx yy →
      Display.pixel t.disp xx yy = Display.pixel s.disp xx yy) ∧
    (t.reg vf = 0 ∨ t.reg vf = 1) ∧
    (t.reg vf = 1 ↔ ∃ xx yy,
      SpriteCovers (s.reg x).toNat (s.reg y).toNat (Memory.readBytes s.mem s.i.toNat n.toNat) xx yy ∧
      Display.pixel s.disp xx yy = true) ∧
    t.pc = s.pc + 2 ∧ Frame s t [vf] [.display]

/-- 45_display.md section 4 (95_test_vectors.md E6, 90_conflicts.md C9): the same sprite drawn twice at the same place restores the
buffer, and the second draw collides exactly when the first left a covered cell set. The place must not be held in `VF`. Wrapping is the spec's choice D17 (log entry 7). -/
def Obligations.DrawTwiceRestores : Prop :=
  ∀ x y n s t, x ≠ vf → y ≠ vf → exec (.drw x y n) s = .next t →
    ∃ u, exec (.drw x y n) t = .next u ∧ u.disp = s.disp ∧
      (u.reg vf = 1 ↔ ∃ xx yy,
        SpriteCovers (s.reg x).toNat (s.reg y).toNat (Memory.readBytes s.mem s.i.toNat n.toNat) xx yy ∧
        Display.pixel t.disp xx yy = true)

/-! ### The host's operations -/

/-- R126: a tick takes each nonzero timer down by one, touches nothing else, and returns nothing; a timer at 5 is 0 after five and
after six ticks. -/
def Obligations.TickTakesEachTimerDown : Prop :=
  (∀ s, (tickTimers s).dt.toNat = s.dt.toNat - 1 ∧ (tickTimers s).st.toNat = s.st.toNat - 1 ∧
    (tickTimers s).pc = s.pc ∧ Frame s (tickTimers s) [] [.delay, .sound]) ∧
  (∀ s, s.dt = 5 → (tickTimers^[5] s).dt = 0 ∧ (tickTimers^[6] s).dt = 0) ∧
  ∀ h, h.phase ≠ .off → hostOp .tickTimers h = (.nothing, { h with core := tickTimers h.core })

/-- 60_exceptions.md section 4: a timer at `v` reads `v - n` after `n` ticks, 0 from `v` ticks on. -/
def Obligations.TimerRunsDown : Prop :=
  ∀ n s, (tickTimers^[n] s).dt.toNat = s.dt.toNat - n ∧ (tickTimers^[n] s).st.toNat = s.st.toNat - n

/-- R132: `set_keys` replaces all 16 entries and touches nothing else; it never faults. No operation changes one key: every other
one but the reset leaves all 16 entries. -/
def Obligations.SetKeysReplacesSnapshot : Prop :=
  (∀ k s, (∀ j : Fin 16, (setKeys k s).key[j] = k[j]) ∧ (setKeys k s).pc = s.pc ∧
    (∀ r, (setKeys k s).reg r = s.reg r) ∧ ∀ p, Kept s (setKeys k s) p) ∧
  (∀ k h, h.phase ≠ .off → hostOp (.setKeys k) h = (.nothing, { h with core := setKeys k h.core })) ∧
  ∀ op h, op ≠ .reset → (∀ k, op ≠ .setKeys k) → ∀ j : Fin 16, (hostOp op h).2.core.key[j] = h.core.key[j]

/-- 70_reset_and_hazards.md section 2: an image that fits is placed at 0x200 and nothing else changes; a larger one is refused with
nothing written (D23; log entry 15). -/
def Obligations.LoadProgramPlacesImage : Prop :=
  ∀ image s,
    (image.length ≤ 3584 → ∃ t, loadProgram image s = some t ∧
      (∀ a, Memory.read t.mem a =
        if 0x200 ≤ a ∧ a < 0x200 + image.length then image.getD (a - 0x200) 0 else Memory.read s.mem a) ∧
      t.pc = s.pc ∧ Frame s t [] [.memory]) ∧
    (3584 < image.length → loadProgram image s = none)

/-- 70_reset_and_hazards.md section 2: the host may load once, between a reset and the first step, and a fitting image is then placed
as `loadProgram` places it; otherwise it has no such move, and an oversize image is refused (D23, U13; log entry 15). The
operations that are no reset, load or step leave the phase. -/
def Obligations.LoadOnlyOnceAfterReset : Prop :=
  ∀ image h,
    (h.phase = .fresh → image.length ≤ 3584 →
      ∃ t, loadProgram image h.core = some t ∧
        hostOp (.loadProgram image) h = (.loadOk, { core := t, phase := .loaded })) ∧
    (h.phase = .fresh → 3584 < image.length → hostOp (.loadProgram image) h = (.loadOutOfRange, h)) ∧
    (h.phase ≠ .fresh → hostOp (.loadProgram image) h = (.noSuchMove, h)) ∧
    (hostOp .reset h).2.phase = .fresh ∧ (h.phase ≠ .off → (hostOp .step h).2.phase = .running) ∧
    ∀ op, op ≠ .reset → op ≠ .step → (∀ im, op ≠ .loadProgram im) → (hostOp op h).2.phase = h.phase

/-- 70_reset_and_hazards.md section 1: after the host's reset, from any state, every piece of architectural state has its reset
value. That a repeated reset restores all of it, memory included, is the spec's choice D34 (log entry 24); the phase is the
model's (log entry 15). -/
def Obligations.ResetRestoresEverything : Prop :=
  ∀ h, ∃ t, hostOp .reset h = (.nothing, { core := t, phase := .fresh }) ∧
    (∀ r, t.reg r = 0) ∧ t.i = 0 ∧ t.pc = 0x200 ∧ t.dt = 0 ∧ t.st = 0 ∧ t.sp.val = 0 ∧
    (∀ k : Fin 16, t.stack[k] = 0) ∧ fontTable.length = 80 ∧
    (∀ a, a < 80 → Memory.read t.mem a = fontTable.getD a 0) ∧ (∀ a, 80 ≤ a → Memory.read t.mem a = 0) ∧
    (∀ xx yy, Display.pixel t.disp xx yy = false) ∧ ∀ k : Fin 16, t.key[k] = false

/-- 60_exceptions.md sections 4 to 6 and 40_step_cycle.md section 7: what `read_display` and `step` reply and change. A step with a
next state takes the core to it and replies Waiting exactly at LD Vx, K with no key pressed, and Done otherwise: the spec's choice
D20, reported apart from the state (log entry 1); a fault is in `FaultLeavesStateUnchanged`. A step and a tick asked for together
are the step and then the tick (D2; log entry 20). The phase is the model's (log entry 15). -/
def Obligations.HostOperationsReply : Prop :=
  ∀ h, h.phase ≠ .off →
    hostOp .readDisplay h = (.pixels h.core.disp, h) ∧
    hostOp .step h = (.stepped (stepReport h.core), { core := stepState h.core, phase := .running }) ∧
    (∀ t, step h.core = .next t →
      (hostOp .step h).2 = { core := t, phase := .running } ∧
      (((∃ x, fetchInstr h.core = .ok (.ldVxK x)) ∧ ∀ k : Fin 16, h.core.key[k] = false) →
        (hostOp .step h).1 = .stepped .waiting) ∧
      (¬ ((∃ x, fetchInstr h.core = .ok (.ldVxK x)) ∧ ∀ k : Fin 16, h.core.key[k] = false) →
        (hostOp .step h).1 = .stepped .done) ∧
      stepWithTick h = ([(hostOp .step h).1, .nothing], { core := tickTimers t, phase := .running })) ∧
    (stepWithTick h).2.core = tickTimers (stepState h.core)

/-- 70_reset_and_hazards.md section 5: at a jump to itself every further step leaves the state as it is (D28, a convention). -/
def Obligations.FinishedProgramStays : Prop := ∀ s, finished s = true → step s = .next s

/-! ### What a step cannot see -/

/-- 10_state.md section 4: no instruction reads the sound timer. Two states that differ in it alone step alike. -/
def Obligations.StepIgnoresSoundTimer : Prop :=
  ∀ s b,
    (∀ t, step s = .next t → ∃ c, step { s with st := b } = .next { t with st := c }) ∧
    ∀ f, step s = .fault f → step { s with st := b } = .fault f

/-- 10_state.md section 5: the stack entries at `SP` and above are dead storage. Two states that differ in them alone step alike, to
states that again differ in dead entries alone. -/
def Obligations.StepIgnoresDeadStack : Prop :=
  ∀ s (e : Vector Word 16), (∀ k : Fin 16, k.val < s.sp.val → e[k] = s.stack[k]) →
    (∀ t, step s = .next t → ∃ e' : Vector Word 16, step { s with stack := e } = .next { t with stack := e' } ∧
      ∀ k : Fin 16, k.val < t.sp.val → e'[k] = t.stack[k]) ∧
    ∀ f, step s = .fault f → step { s with stack := e } = .fault f
end

