-- ==== Sys2Proof/Laws/Decode.lean ====
section
/-! SUPPORT. What each field of a word reads in each format (30_encoding.md R47, R48), and the bytes of a word. -/

namespace Sys2Proof

/-- The high part of a concatenation, by extraction. -/
theorem extract_high {m k : Nat} (a : BitVec m) (b : BitVec k) : (a ++ b).extractLsb' k m = a := by
  apply BitVec.eq_of_getLsbD_eq; intro i hi
  simp [BitVec.getLsbD_append, hi]

/-- The low part of a concatenation, by extraction. -/
theorem extract_low {m k : Nat} (a : BitVec m) (b : BitVec k) : (a ++ b).extractLsb' 0 k = b := by
  apply BitVec.eq_of_getLsbD_eq; intro i hi
  simp [BitVec.getLsbD_append, hi]

theorem opField_formA (op : Nibble) (nnn : Addr) : opField (formA op nnn) = op := extract_high op nnn
theorem nnnField_formA (op : Nibble) (nnn : Addr) : nnnField (formA op nnn) = nnn := extract_low op nnn

theorem opField_formXK (op : Nibble) (x : Reg) (kk : Byte) : opField (formXK op x kk) = op := extract_high op (x ++ kk)
theorem xField_formXK (op : Nibble) (x : Reg) (kk : Byte) : xField (formXK op x kk) = x := by
  apply BitVec.eq_of_getLsbD_eq; intro i hi
  simp only [xField, formXK, BitVec.getLsbD_extractLsb', BitVec.getLsbD_append]
  have h1 : 8 + i < 4 + 8 := by omega
  have h2 : ¬ 8 + i < 8 := by omega
  have h3 : 8 + i - 8 = i := by omega
  simp [hi, h1, h2, h3]
theorem kkField_formXK (op : Nibble) (x : Reg) (kk : Byte) : kkField (formXK op x kk) = kk := by
  apply BitVec.eq_of_getLsbD_eq; intro i hi
  simp only [kkField, formXK, BitVec.getLsbD_extractLsb', BitVec.getLsbD_append]
  have h : i < 12 := by omega
  simp [hi, h]

theorem opField_formXY (op : Nibble) (x y : Reg) (n : Nibble) : opField (formXY op x y n) = op :=
  extract_high op (x ++ (y ++ n))
theorem xField_formXY (op : Nibble) (x y : Reg) (n : Nibble) : xField (formXY op x y n) = x := by
  have e : formXY op x y n = formXK op x (y ++ n) := rfl
  rw [e, xField_formXK]
theorem yField_formXY (op : Nibble) (x y : Reg) (n : Nibble) : yField (formXY op x y n) = y := by
  apply BitVec.eq_of_getLsbD_eq; intro i hi
  simp only [yField, formXY, BitVec.getLsbD_extractLsb', BitVec.getLsbD_append]
  have h1 : 4 + i < 4 + (4 + 4) := by omega
  have h2 : 4 + i < 4 + 4 := by omega
  have h3 : ¬ 4 + i < 4 := by omega
  have h4 : 4 + i - 4 = i := by omega
  simp [hi, h1, h2, h3, h4]
theorem nField_formXY (op : Nibble) (x y : Reg) (n : Nibble) : nField (formXY op x y n) = n := by
  apply BitVec.eq_of_getLsbD_eq; intro i hi
  simp only [nField, formXY, BitVec.getLsbD_extractLsb', BitVec.getLsbD_append]
  have h1 : i < 12 := by omega
  have h2 : i < 8 := by omega
  simp [hi, h1, h2]

/-- Every word is its class and its address field (format A). -/
theorem word_eq_formA (w : Word) : w = formA (opField w) (nnnField w) := by
  apply BitVec.eq_of_getLsbD_eq; intro i hi
  simp only [formA, opField, nnnField, BitVec.getLsbD_append, BitVec.getLsbD_extractLsb']
  split
  · simp [*]
  · have h1 : i - 12 < 4 := by omega
    have h2 : 12 + (i - 12) = i := by omega
    simp [h1, h2]

/-- The address field is the `x` field and the second byte (R47: `nnn = {x, kk}`). -/
theorem nnnField_eq (w : Word) : nnnField w = xField w ++ kkField w := by
  apply BitVec.eq_of_getLsbD_eq; intro i hi
  simp only [nnnField, xField, kkField, BitVec.getLsbD_append, BitVec.getLsbD_extractLsb']
  split
  · simp [*]
  · have h1 : i - 8 < 4 := by omega
    have h2 : 8 + (i - 8) = i := by omega
    simp [h1, h2, hi]

/-- The second byte is the `y` field and the `n` field (R47: `kk = {y, n}`). -/
theorem kkField_eq (w : Word) : kkField w = yField w ++ nField w := by
  apply BitVec.eq_of_getLsbD_eq; intro i hi
  simp only [kkField, yField, nField, BitVec.getLsbD_append, BitVec.getLsbD_extractLsb']
  split
  · simp [*]
  · have h1 : i - 4 < 4 := by omega
    have h2 : 4 + (i - 4) = i := by omega
    simp [h1, h2, hi]

/-- Every word is its class, `x` and second byte (format XK). -/
theorem word_eq_formXK (w : Word) : w = formXK (opField w) (xField w) (kkField w) := by
  conv => lhs; rw [word_eq_formA w, nnnField_eq]
  rfl

/-- Every word is its four nibbles (format XY). -/
theorem word_eq_formXY (w : Word) : w = formXY (opField w) (xField w) (yField w) (nField w) := by
  conv => lhs; rw [word_eq_formXK w, kkField_eq]
  rfl

/-- The two bytes of a word, laid out first byte high, assemble to the word (20_memory.md R33). -/
theorem wordOfBytes_bytes (w : Word) : wordOfBytes (firstByte w) (secondByte w) = w := by
  apply BitVec.eq_of_getLsbD_eq; intro i hi
  simp only [wordOfBytes, firstByte, secondByte, BitVec.getLsbD_append, BitVec.getLsbD_extractLsb']
  split
  · simp [*]
  · have h1 : i - 8 < 8 := by omega
    have h2 : 8 + (i - 8) = i := by omega
    simp [h1, h2]

/-- The word as a number: the first byte is the high one (R33). -/
theorem wordOfBytes_toNat (a b : Byte) : (wordOfBytes a b).toNat = a.toNat * 256 + b.toNat := by
  simp only [wordOfBytes, BitVec.toNat_append]
  rw [← Nat.shiftLeft_add_eq_or_of_lt b.isLt, Nat.shiftLeft_eq]

end Sys2Proof
end

