-- ==== Sys2Proof/Laws/Memory.lean ====
section
/-! SUPPORT. The laws of memory: what a read finds after each operation, and that every operation keeps the canonical form. -/

namespace Sys2Proof.Machine

open Sys2Proof

/-- Reading an erased memory: the erased address reads as its reset contents, every other as before. -/
theorem Memory.read_erase (m : Memory) (a b : Nat) :
    Memory.read (Memory.erase m a) b = if b = a then resetByte a else Memory.read m b := by
  induction m with
  | nil => by_cases h : b = a <;> simp [Memory.erase, Memory.read, h]
  | cons c rest ih =>
    obtain ⟨k, w⟩ := c
    by_cases hk : k = a
    · have e : Memory.erase ((k, w) :: rest) a = Memory.erase rest a := by simp [Memory.erase, hk]
      rw [e, ih]
      by_cases h : b = a <;> simp [Memory.read, h, hk]
    · have e : Memory.erase ((k, w) :: rest) a = (k, w) :: Memory.erase rest a := by simp [Memory.erase, hk]
      rw [e, Memory.read, ih, Memory.read]
      by_cases h : b = k
      · simp [h, hk]
      · simp [h]

/-- Reading after a cell is put in: its address reads as its byte, when no other cell holds that address. -/
theorem Memory.read_insert (m : Memory) (a b : Nat) (v : Byte) (fresh : ∀ c ∈ m, c.1 ≠ a) :
    Memory.read (Memory.insert a v m) b = if b = a then v else Memory.read m b := by
  induction m with
  | nil => simp [Memory.insert, Memory.read]
  | cons c rest ih =>
    obtain ⟨k, w⟩ := c
    simp only [List.mem_cons, forall_eq_or_imp] at fresh
    simp only [Memory.insert]
    split
    · simp [Memory.read]
    · simp only [Memory.read, ih fresh.2]
      by_cases h : b = k
      · simp [h, fresh.1]
      · simp [h]

theorem Memory.erase_fresh (m : Memory) (a : Nat) : ∀ c ∈ Memory.erase m a, c.1 ≠ a := by
  simp [Memory.erase, List.mem_filter]

/-- A read after a write: the byte written at its address, the old byte at every other (20_memory.md R38). -/
theorem Memory.read_write (m : Memory) (a b : Nat) (v : Byte) :
    Memory.read (Memory.write m a v) b = if b = a then v else Memory.read m b := by
  simp only [Memory.write]
  split
  next h => rw [Memory.read_erase, h]
  next =>
    rw [Memory.read_insert _ _ _ _ (Memory.erase_fresh m a), Memory.read_erase]
    by_cases h : b = a <;> simp [h]

/-- Reading after a run of bytes is stored: the stored run in its range, the old byte outside it (R34). -/
theorem Memory.read_writeBytes (bs : List Byte) (m : Memory) (a b : Nat) :
    Memory.read (Memory.writeBytes m a bs) b =
      if a ≤ b ∧ b < a + bs.length then bs.getD (b - a) 0 else Memory.read m b := by
  induction bs generalizing m a with
  | nil => simp [Memory.writeBytes]
  | cons v vs ih =>
    simp only [Memory.writeBytes, ih, Memory.read_write, List.length_cons]
    by_cases h1 : b = a
    · subst h1; simp
    · by_cases h2 : a ≤ b
      · have h3 : a + 1 ≤ b := by omega
        obtain ⟨d, rfl⟩ := Nat.exists_eq_add_of_le h3
        have h4 : a + 1 + d - a = d + 1 := by omega
        simp [h4, h2, h1]
        congr 1
        simp only [eq_iff_iff]; omega
      · have h3 : ¬ a + 1 ≤ b := by omega
        simp [h1, h2, h3]

theorem Memory.length_readBytes (m : Memory) (a n : Nat) : (Memory.readBytes m a n).length = n := by
  induction n generalizing a with
  | zero => rfl
  | succ n ih => simp [Memory.readBytes, ih]

/-- The `k`-th of a run of bytes read is the byte at `a + k`. -/
theorem Memory.getD_readBytes (m : Memory) (a n k : Nat) (h : k < n) :
    (Memory.readBytes m a n).getD k 0 = Memory.read m (a + k) := by
  induction n generalizing a k with
  | zero => omega
  | succ n ih =>
    cases k with
    | zero => simp [Memory.readBytes]
    | succ k =>
      have := ih (a + 1) k (by omega)
      simp only [Memory.readBytes, List.getD_cons_succ, this]
      congr 1; omega

/-- The canonical form of a list with a first cell. -/
theorem Memory.wf_cons (a : Nat) (v : Byte) (m : Memory) :
    Memory.wf ((a, v) :: m) = true ↔
      a < 4096 ∧ v ≠ resetByte a ∧ (∀ c ∈ m, a < c.1) ∧ Memory.wf m = true := by
  simp [Memory.wf, and_assoc]

theorem Memory.wf_erase (m : Memory) (a : Nat) (h : Memory.wf m = true) : Memory.wf (Memory.erase m a) = true := by
  induction m with
  | nil => rfl
  | cons c rest ih =>
    obtain ⟨k, w⟩ := c
    rw [Memory.wf_cons] at h
    by_cases hk : k = a
    · simpa [Memory.erase, hk] using ih h.2.2.2
    · have : Memory.erase ((k, w) :: rest) a = (k, w) :: Memory.erase rest a := by simp [Memory.erase, hk]
      rw [this, Memory.wf_cons]
      exact ⟨h.1, h.2.1, fun c hc => h.2.2.1 c (List.mem_filter.1 hc).1, ih h.2.2.2⟩

theorem Memory.mem_insert (m : Memory) (a : Nat) (v : Byte) (c : Host.Cell) :
    c ∈ Memory.insert a v m ↔ c = (a, v) ∨ c ∈ m := by
  induction m with
  | nil => simp [Memory.insert]
  | cons d rest ih =>
    simp only [Memory.insert]
    split
    · simp
    · simp only [List.mem_cons, ih]; tauto

theorem Memory.wf_insert (m : Memory) (a : Nat) (v : Byte) (h : Memory.wf m = true) (fresh : ∀ c ∈ m, c.1 ≠ a)
    (inRange : a < 4096) (hv : v ≠ resetByte a) : Memory.wf (Memory.insert a v m) = true := by
  induction m with
  | nil => simp [Memory.insert, inRange, hv, Memory.wf]
  | cons c rest ih =>
    obtain ⟨k, w⟩ := c
    have hc := (Memory.wf_cons k w rest).1 h
    simp only [List.mem_cons, forall_eq_or_imp] at fresh
    simp only [Memory.insert]
    split
    next hlt =>
      rw [Memory.wf_cons]
      refine ⟨inRange, hv, ?_, h⟩
      simp only [List.mem_cons, forall_eq_or_imp]
      exact ⟨hlt, fun c hcm => lt_trans hlt (hc.2.2.1 c hcm)⟩
    next hge =>
      rw [Memory.wf_cons]
      refine ⟨hc.1, hc.2.1, fun c hcm => ?_, ih hc.2.2.2 fresh.2⟩
      rcases (Memory.mem_insert rest a v c).1 hcm with rfl | hcm
      · have := fresh.1; simp at hge this ⊢; omega
      · exact hc.2.2.1 c hcm

/-- A write below 4096 keeps the canonical form. -/
theorem Memory.wf_write (m : Memory) (a : Nat) (v : Byte) (h : Memory.wf m = true) (inRange : a < 4096) :
    Memory.wf (Memory.write m a v) = true := by
  simp only [Memory.write]
  split
  · exact Memory.wf_erase m a h
  · exact Memory.wf_insert _ a v (Memory.wf_erase m a h) (Memory.erase_fresh m a) inRange ‹_›

/-- A run of bytes stored below 4096 keeps the canonical form. -/
theorem Memory.wf_writeBytes (bs : List Byte) (m : Memory) (a : Nat) (h : Memory.wf m = true)
    (inRange : a + bs.length ≤ 4096) : Memory.wf (Memory.writeBytes m a bs) = true := by
  induction bs generalizing m a with
  | nil => exact h
  | cons v vs ih =>
    simp only [List.length_cons] at inRange
    exact ih (Memory.write m a v) (a + 1) (Memory.wf_write m a v h (by omega)) (by omega)

/-- The memory after reset is in the canonical form. -/
theorem Memory.wf_reset : Memory.wf State.reset.mem = true := rfl

end Sys2Proof.Machine
end

