-- ==== Sys2Proof/Laws/Ops.lean ====
section
/-! SUPPORT. What each shared operation can do, said once: the stack, the range check, the fetch, the keys, the skip. -/

namespace Sys2Proof.Machine

open Sys2Proof

/-- A push with room: the entry at `SP` is the value, `SP` is one more, nothing else changes (10_state.md R17). -/
theorem State.push_of_room (s : State) (value : Word) (h : s.sp.val < 16) :
    s.push value =
      some { s with stack := s.stack.set s.sp.val value h, sp := ⟨s.sp.val + 1, by omega⟩ } := by
  simp [State.push, h]

/-- A push without room does nothing (R17). -/
theorem State.push_of_full (s : State) (value : Word) (h : s.sp.val = 16) : s.push value = none := by
  simp [State.push, h]

/-- A pop of a used entry: the newest entry, `SP` one less, the entries as they were (R17). -/
theorem State.pop_of_used (s : State) (h : 0 < s.sp.val) :
    s.pop = some (s.stack[s.sp.val - 1]'(by omega), { s with sp := ⟨s.sp.val - 1, by omega⟩ }) := by
  simp [State.pop, h]

/-- A pop of the empty stack does nothing (R17). -/
theorem State.pop_of_empty (s : State) (h : s.sp.val = 0) : s.pop = none := by
  simp [State.pop, h]

/-- The range check in numbers (20_memory.md R37). -/
theorem State.rangeFaults_iff (s : State) (n : Nat) :
    s.rangeFaults n = true ↔ 1 ≤ n ∧ 4096 < s.i.toNat + n := by
  simp only [State.rangeFaults, decide_eq_true_eq]; omega

/-- An access in range runs its continuation at the base address. -/
theorem State.withRange_of_inside (s : State) (n : Nat) (k : Nat → Result) (h : s.rangeFaults n = false) :
    s.withRange n k = k s.i.toNat := by
  simp [State.withRange, h]

/-- An access out of range is the fault, and the continuation is not run. -/
theorem State.withRange_of_outside (s : State) (n : Nat) (k : Nat → Result) (h : s.rangeFaults n = true) :
    s.withRange n k = .fault s.rangeFault := by
  simp [State.withRange, h, raise]

/-- The fetch within its bound is the big-endian word (R33, 40_step_cycle.md R61). -/
theorem fetch_of_inside (s : State) (h : s.pc.toNat ≤ 4094) : fetch s = .ok (s.wordAt s.pc.toNat) := by
  simp [fetch, Nat.not_lt.2 h]

/-- The fetch beyond its bound is the fault (R61). -/
theorem fetch_of_outside (s : State) (h : 4094 < s.pc.toNat) :
    fetch s = .error (.addressOutOfRange s.pc (if s.pc.toNat = 4095 then 4096 else s.pc.toNat)) := by
  simp [fetch, h]

/-- Fetch and decode: the instruction of the word within the bound. -/
theorem fetchInstr_of_instr (s : State) (i : Instr) (h : s.pc.toNat ≤ 4094)
    (d : decode (s.wordAt s.pc.toNat) = .instr i) : fetchInstr s = .ok i := by
  simp [fetchInstr, fetch_of_inside s h, d]

/-- Every fetch that answers an instruction was within the bound. -/
theorem bound_of_fetchInstr (s : State) (i : Instr) (h : fetchInstr s = .ok i) :
    s.pc.toNat ≤ 4094 ∧ decode (s.wordAt s.pc.toNat) = .instr i := by
  by_cases hb : s.pc.toNat ≤ 4094
  · rw [fetchInstr, fetch_of_inside s hb] at h
    refine ⟨hb, ?_⟩
    cases hd : decode (s.wordAt s.pc.toNat) with
    | instr j => simp only [hd] at h; cases h; rfl
    | unknown u => simp only [hd] at h; cases h
  · rw [fetchInstr, fetch_of_outside s (by omega)] at h
    cases h

/-- A step that answers a next state ran the handler of the fetched instruction (R60). -/
theorem exec_of_step (s t : State) (h : step s = .next t) :
    ∃ i, fetchInstr s = .ok i ∧ exec i s = .next t := by
  simp only [step] at h
  cases hf : fetchInstr s with
  | error f => rw [hf] at h; cases h
  | ok i => rw [hf] at h; exact ⟨i, rfl, h⟩

/-- The skip in terms of its condition (R64). -/
theorem State.skipIf_true (s : State) : s.skipIf true = s.skip := rfl
theorem State.skipIf_false (s : State) : s.skipIf false = s.advance := rfl

/-- No key is pressed exactly when there is no first key (44_timer_random_key.md R108). -/
theorem State.firstKey_eq_none (s : State) : s.firstKey = none ↔ ∀ k, s.keyDown k = false := by
  simp only [State.firstKey, List.findIdx?_eq_none_iff, State.keyDown]
  constructor
  · intro h k
    simpa using h _ (by simp : s.key[k.toNat]'k.isLt ∈ s.key.toList)
  · intro h b hb
    obtain ⟨j, hj, rfl⟩ := List.mem_iff_getElem.1 hb
    simp only [Vector.length_toList] at hj
    have := h (BitVec.ofNat 4 j)
    simpa [Nat.mod_eq_of_lt hj] using this

/-- The first key is the least pressed index (R108). -/
theorem State.firstKey_eq_some (s : State) (k : Nat) :
    s.firstKey = some k ↔ ∃ h : k < 16, s.key[k] = true ∧ ∀ j (hj : j < k), s.key[j] = false := by
  simp only [State.firstKey, List.findIdx?_eq_some_iff_getElem, Vector.length_toList, id, Vector.getElem_toList,
    Bool.not_eq_true]

/-- The block of registers stored by LD [I], Vx (43_index_memory.md R98). -/
theorem State.length_regBlock (s : State) (x : Reg) : (s.regBlock x).length = x.toNat + 1 := by
  have := x.isLt
  simp [State.regBlock]; omega

theorem State.getD_regBlock (s : State) (x y : Reg) (h : y.toNat ≤ x.toNat) : (s.regBlock x).getD y.toNat 0 = s.reg y := by
  have := y.isLt
  rw [List.getD_eq_getElem _ _ (by rw [State.length_regBlock]; omega)]
  simp [State.regBlock, State.reg]

end Sys2Proof.Machine
end

