-- ==== Sys2Proof/Laws/Draw.lean ====
section
/-! SUPPORT. What drawing a sprite does: each display cell is exclusive-ored with "a 1 bit of the sprite lands here", and the
collision is "some covered cell was set" (45_display.md R112 to R115). -/

namespace Sys2Proof.Machine

open Sys2Proof

/-- A toggle flips its own cell and no other (R113). -/
theorem Display.pixel_toggle (d : Display) (xx a : Fin 64) (yy b : Fin 32) :
    Display.pixel (Display.toggle d xx yy).1 a b = (Display.pixel d a b ^^ decide (a = xx ∧ b = yy)) := by
  simp only [Display.pixel, Display.toggle, Fin.getElem_fin, Vector.getElem_set]
  by_cases hy : b = yy
  · subst hy
    simp [Fin.ext_iff]
  · have hy' : ¬ yy.val = b.val := fun h => hy (Fin.ext h.symm)
    simp [hy, hy']

theorem Display.pixel_clear (d : Display) (xx : Fin 64) (yy : Fin 32) : Display.pixel (Display.clear d) xx yy = false := by
  simp [Display.pixel, Display.clear]

/-- Two buffers with the same cells are the same buffer. -/
theorem Display.ext_pixel (d e : Display) (h : ∀ xx yy, Display.pixel d xx yy = Display.pixel e xx yy) : d = e := by
  apply Vector.ext
  intro j hj
  apply BitVec.eq_of_getLsbD_eq
  intro k hk
  exact h ⟨k, hk⟩ ⟨j, hj⟩

/-- The cells the 1 bits of one sprite row land on. -/
def rowCells (vx vy r : Nat) (b : Byte) : List (Fin 64 × Fin 32) :=
  ([0, 1, 2, 3, 4, 5, 6, 7].filter fun c => b.getLsbD (7 - c)).map fun c => (spriteCol vx c, spriteRow vy r)

/-- The cells the 1 bits of the sprite's rows from row `r` on land on. -/
def spriteCells (vx vy r : Nat) : List Byte → List (Fin 64 × Fin 32)
  | [] => []
  | b :: bs => rowCells vx vy r b ++ spriteCells vx vy (r + 1) bs

/-- Toggle one cell and note a collision. -/
def toggleCell (p : Display × Bool) (q : Fin 64 × Fin 32) : Display × Bool :=
  ((Display.toggle p.1 q.1 q.2).1, p.2 || Display.pixel p.1 q.1 q.2)

theorem drawRow_eq_toggles (vx vy r : Nat) (b : Byte) (p : Display × Bool) :
    drawRow vx vy r b p = (rowCells vx vy r b).foldl toggleCell p := by
  rw [rowCells, List.foldl_map, List.foldl_filter]
  rfl

theorem drawRows_eq_toggles (vx vy r : Nat) (bs : List Byte) (p : Display × Bool) :
    drawRows vx vy r bs p = (spriteCells vx vy r bs).foldl toggleCell p := by
  induction bs generalizing r p with
  | nil => rfl
  | cons b bs ih => rw [drawRows, ih, drawRow_eq_toggles, spriteCells, List.foldl_append]

/-- Toggling a list of different cells: each is flipped once, and the collision is "one of them was set". -/
theorem foldl_toggleCell (cells : List (Fin 64 × Fin 32)) (p : Display × Bool) (distinct : cells.Nodup) :
    (∀ xx yy, Display.pixel (cells.foldl toggleCell p).1 xx yy
      = (Display.pixel p.1 xx yy ^^ decide ((xx, yy) ∈ cells))) ∧
    ((cells.foldl toggleCell p).2 = (p.2 || cells.any fun q => Display.pixel p.1 q.1 q.2)) := by
  induction cells generalizing p with
  | nil => simp
  | cons q qs ih =>
    obtain ⟨fresh, rest⟩ := List.nodup_cons.1 distinct
    obtain ⟨pix, hit⟩ := ih (toggleCell p q) rest
    constructor
    · intro xx yy
      rw [List.foldl_cons, pix, toggleCell, Display.pixel_toggle]
      by_cases hq : (xx, yy) = q
      · subst hq; simp [fresh]
      · have hq' : ¬ (xx = q.1 ∧ yy = q.2) := fun h => hq (Prod.ext h.1 h.2)
        simp [hq, hq']
    · rw [List.foldl_cons, hit]
      have same : (qs.any fun a => Display.pixel (toggleCell p q).1 a.1 a.2)
          = qs.any fun a => Display.pixel p.1 a.1 a.2 := by
        rw [Bool.eq_iff_iff, List.any_eq_true, List.any_eq_true]
        refine exists_congr fun a => and_congr_right fun ha => ?_
        have hne : ¬ (a.1 = q.1 ∧ a.2 = q.2) := fun h => fresh ((Prod.ext h.1 h.2 : a = q) ▸ ha)
        rw [toggleCell, Display.pixel_toggle]; simp [hne]
      rw [same]
      simp [toggleCell, Bool.or_assoc]

theorem mem_rowCells (vx vy r : Nat) (b : Byte) (q : Fin 64 × Fin 32) :
    q ∈ rowCells vx vy r b ↔ ∃ c, c < 8 ∧ b.getLsbD (7 - c) = true ∧ q = (spriteCol vx c, spriteRow vy r) := by
  have cols : ∀ c, c ∈ [0, 1, 2, 3, 4, 5, 6, 7] ↔ c < 8 := by
    intro c; simp only [List.mem_cons, List.not_mem_nil, or_false]; omega
  simp only [rowCells, List.mem_map, List.mem_filter, cols, and_assoc, eq_comm]

theorem mem_spriteCells (vx vy r : Nat) (bs : List Byte) (q : Fin 64 × Fin 32) :
    q ∈ spriteCells vx vy r bs ↔ ∃ k c, k < bs.length ∧ c < 8 ∧ (bs.getD k 0).getLsbD (7 - c) = true ∧
      q = (spriteCol vx c, spriteRow vy (r + k)) := by
  induction bs generalizing r with
  | nil => simp [spriteCells]
  | cons b bs ih =>
    rw [spriteCells, List.mem_append, mem_rowCells, ih]
    constructor
    · rintro (⟨c, hc, hb, rfl⟩ | ⟨k, c, hk, hc, hb, rfl⟩)
      · exact ⟨0, c, by simp, hc, by simpa using hb, rfl⟩
      · exact ⟨k + 1, c, by simpa using hk, hc, by simpa using hb, by rw [Nat.add_assoc, Nat.add_comm 1 k]⟩
    · rintro ⟨k, c, hk, hc, hb, rfl⟩
      cases k with
      | zero => exact .inl ⟨c, hc, by simpa using hb, rfl⟩
      | succ k =>
        exact .inr ⟨k, c, by simpa using hk, hc, by simpa using hb, by rw [Nat.add_assoc, Nat.add_comm 1 k]⟩

theorem spriteCol_inj (vx c e : Nat) (hc : c < 8) (he : e < 8) (h : spriteCol vx c = spriteCol vx e) : c = e := by
  have := congrArg Fin.val h
  simp only [spriteCol, Fin.ofNat] at this
  omega

theorem spriteRow_inj (vy r q : Nat) (d : r ≤ q) (near : q < r + 32) (h : spriteRow vy r = spriteRow vy q) : r = q := by
  have := congrArg Fin.val h
  simp only [spriteRow, Fin.ofNat] at this
  omega

/-- No two pixels of a sprite of at most 32 rows land on the same cell (R114). -/
theorem nodup_spriteCells (vx vy r : Nat) (bs : List Byte) (short : bs.length ≤ 32) : (spriteCells vx vy r bs).Nodup := by
  induction bs generalizing r with
  | nil => simp [spriteCells]
  | cons b bs ih =>
    simp only [List.length_cons] at short
    rw [spriteCells, List.nodup_append]
    refine ⟨?_, ih (r + 1) (by omega), ?_⟩
    · refine List.Nodup.map_on ?_ (List.Nodup.filter _ (by decide))
      intro c hc e he heq
      have cols : ∀ c, c ∈ [0, 1, 2, 3, 4, 5, 6, 7] → c < 8 := by
        intro c; simp only [List.mem_cons, List.not_mem_nil, or_false]; omega
      exact spriteCol_inj vx c e (cols c (List.mem_filter.1 hc).1) (cols e (List.mem_filter.1 he).1) (Prod.ext_iff.1 heq).1
    · intro a ha c hc heq
      obtain ⟨c1, -, -, rfl⟩ := (mem_rowCells vx vy r b a).1 ha
      obtain ⟨k, c2, hk, -, -, rfl⟩ := (mem_spriteCells vx vy (r + 1) bs c).1 hc
      have := spriteRow_inj vy r (r + 1 + k) (by omega) (by omega) (Prod.ext_iff.1 heq).2
      omega

theorem mem_spriteCells_iff_covers (vx vy : Nat) (bs : List Byte) (xx : Fin 64) (yy : Fin 32) :
    (xx, yy) ∈ spriteCells vx vy 0 bs ↔ SpriteCovers vx vy bs xx yy := by
  rw [mem_spriteCells, SpriteCovers]
  simp only [Prod.mk.injEq, Fin.ext_iff, spriteCol, spriteRow, Fin.ofNat, Nat.zero_add]

/-- Drawing a sprite of at most 32 rows, cell by cell (R112): a covered cell is flipped, every other is left. -/
theorem pixel_drawSprite (vx vy : Nat) (bs : List Byte) (d : Display) (short : bs.length ≤ 32) (xx : Fin 64) (yy : Fin 32) :
    (SpriteCovers vx vy bs xx yy → Display.pixel (drawSprite vx vy bs d).1 xx yy = !Display.pixel d xx yy) ∧
    (¬ SpriteCovers vx vy bs xx yy → Display.pixel (drawSprite vx vy bs d).1 xx yy = Display.pixel d xx yy) := by
  rw [← mem_spriteCells_iff_covers, drawSprite, drawRows_eq_toggles]
  have := (foldl_toggleCell _ (d, false) (nodup_spriteCells vx vy 0 bs short)).1 xx yy
  constructor <;> intro h <;> rw [this] <;> simp [h]

/-- The collision flag of a sprite of at most 32 rows: a covered cell was set (R112). -/
theorem collision_drawSprite (vx vy : Nat) (bs : List Byte) (d : Display) (short : bs.length ≤ 32) :
    (drawSprite vx vy bs d).2 = true ↔ ∃ xx yy, SpriteCovers vx vy bs xx yy ∧ Display.pixel d xx yy = true := by
  rw [drawSprite, drawRows_eq_toggles, (foldl_toggleCell _ (d, false) (nodup_spriteCells vx vy 0 bs short)).2]
  simp only [Bool.false_or, List.any_eq_true, Prod.exists, mem_spriteCells_iff_covers]

end Sys2Proof.Machine
end

