-- ==== Sys2Proof/Laws/PerInstr.lean ====
section
/-! SUPPORT. The family RowMatch: an instruction's word matches its own row of the table of 30_encoding.md R50. -/

namespace Sys2Proof

theorem formA_and (op m : Nibble) (nnn k : Addr) : formA op nnn &&& formA m k = formA (op &&& m) (nnn &&& k) :=
  BitVec.and_append

theorem formXK_and (op m : Nibble) (x p : Reg) (kk q : Byte) :
    formXK op x kk &&& formXK m p q = formXK (op &&& m) (x &&& p) (kk &&& q) :=
  (BitVec.and_append (x₁ := op) (y₁ := x ++ kk)).trans (congrArg (fun z => (op &&& m) ++ z) BitVec.and_append)

theorem formXY_and (op m : Nibble) (x p y q : Reg) (n k : Nibble) :
    formXY op x y n &&& formXY m p q k = formXY (op &&& m) (x &&& p) (y &&& q) (n &&& k) :=
  (formXK_and op m x p (y ++ n) (q ++ k)).trans (congrArg (formXK (op &&& m) (x &&& p)) BitVec.and_append)

theorem nibble_and_ones (a : Nibble) : a &&& 0xF = a := BitVec.and_allOnes

theorem byte_and_ones (a : Byte) : a &&& 0xFF = a := BitVec.and_allOnes

theorem and_none {k : Nat} (a : BitVec k) : a &&& 0 = 0 := BitVec.and_zero

/-- A format A word under the mask 0xF000. -/
theorem formA_mask (op : Nibble) (nnn : Addr) : formA op nnn &&& 0xF000 = formA op 0 :=
  (formA_and op 0xF nnn 0).trans (by rw [nibble_and_ones, and_none])

/-- A format XK word under the mask 0xF000. -/
theorem formXK_mask (op : Nibble) (x : Reg) (kk : Byte) : formXK op x kk &&& 0xF000 = formXK op 0 0 :=
  (formXK_and op 0xF x 0 kk 0).trans (by rw [nibble_and_ones, and_none, and_none])

/-- A format X word under the mask 0xF0FF. -/
theorem formX_mask (op : Nibble) (x : Reg) (kk : Byte) : formXK op x kk &&& 0xF0FF = formXK op 0 kk :=
  (formXK_and op 0xF x 0 kk 0xFF).trans (by rw [nibble_and_ones, byte_and_ones, and_none])

/-- A format XY word under the mask 0xF00F. -/
theorem formXY_mask (op : Nibble) (x y : Reg) (n : Nibble) : formXY op x y n &&& 0xF00F = formXY op 0 0 n :=
  (formXY_and op 0xF x 0 y 0 n 0xF).trans (by rw [nibble_and_ones, nibble_and_ones, and_none, and_none])

/-- A format XYN word under the mask 0xF000. -/
theorem formXYN_mask (op : Nibble) (x y : Reg) (n : Nibble) : formXY op x y n &&& 0xF000 = formXY op 0 0 0 :=
  (formXY_and op 0xF x 0 y 0 n 0).trans (by rw [nibble_and_ones, and_none, and_none, and_none])

end Sys2Proof

namespace Sys2Proof.Laws.RowMatch

open Sys2Proof

/-- The word of the instruction matches the instruction's row (R50). -/
def Statement (i : Instr) : Prop := encode i &&& (rowOf i).mask = (rowOf i).bits

theorem cls : Statement .cls := rfl
theorem ret : Statement .ret := rfl
theorem jp (nnn : Addr) : Statement (.jp nnn) := formA_mask 0x1 nnn
theorem call (nnn : Addr) : Statement (.call nnn) := formA_mask 0x2 nnn
theorem seImm (x : Reg) (kk : Byte) : Statement (.seImm x kk) := formXK_mask 0x3 x kk
theorem sneImm (x : Reg) (kk : Byte) : Statement (.sneImm x kk) := formXK_mask 0x4 x kk
theorem seReg (x y : Reg) : Statement (.seReg x y) := formXY_mask 0x5 x y 0
theorem ldImm (x : Reg) (kk : Byte) : Statement (.ldImm x kk) := formXK_mask 0x6 x kk
theorem addImm (x : Reg) (kk : Byte) : Statement (.addImm x kk) := formXK_mask 0x7 x kk
theorem ldReg (x y : Reg) : Statement (.ldReg x y) := formXY_mask 0x8 x y 0
theorem orReg (x y : Reg) : Statement (.orReg x y) := formXY_mask 0x8 x y 1
theorem andReg (x y : Reg) : Statement (.andReg x y) := formXY_mask 0x8 x y 2
theorem xorReg (x y : Reg) : Statement (.xorReg x y) := formXY_mask 0x8 x y 3
theorem addReg (x y : Reg) : Statement (.addReg x y) := formXY_mask 0x8 x y 4
theorem subReg (x y : Reg) : Statement (.subReg x y) := formXY_mask 0x8 x y 5
theorem shr (x y : Reg) : Statement (.shr x y) := formXY_mask 0x8 x y 6
theorem sneReg (x y : Reg) : Statement (.sneReg x y) := formXY_mask 0x9 x y 0
theorem ldI (nnn : Addr) : Statement (.ldI nnn) := formA_mask 0xA nnn
theorem jpV0 (nnn : Addr) : Statement (.jpV0 nnn) := formA_mask 0xB nnn
theorem rnd (x : Reg) (kk : Byte) : Statement (.rnd x kk) := formXK_mask 0xC x kk
theorem drw (x y : Reg) (n : Nibble) : Statement (.drw x y n) := formXYN_mask 0xD x y n
theorem skp (x : Reg) : Statement (.skp x) := formX_mask 0xE x 0x9E
theorem sknp (x : Reg) : Statement (.sknp x) := formX_mask 0xE x 0xA1
theorem ldVxDT (x : Reg) : Statement (.ldVxDT x) := formX_mask 0xF x 0x07
theorem ldVxK (x : Reg) : Statement (.ldVxK x) := formX_mask 0xF x 0x0A
theorem ldDTVx (x : Reg) : Statement (.ldDTVx x) := formX_mask 0xF x 0x15
theorem ldSTVx (x : Reg) : Statement (.ldSTVx x) := formX_mask 0xF x 0x18
theorem addI (x : Reg) : Statement (.addI x) := formX_mask 0xF x 0x1E
theorem ldF (x : Reg) : Statement (.ldF x) := formX_mask 0xF x 0x29
theorem ldB (x : Reg) : Statement (.ldB x) := formX_mask 0xF x 0x33
theorem ldMemVx (x : Reg) : Statement (.ldMemVx x) := formX_mask 0xF x 0x55
theorem ldVxMem (x : Reg) : Statement (.ldVxMem x) := formX_mask 0xF x 0x65

end Sys2Proof.Laws.RowMatch
end

