-- ==== Sys2Proof/Tests/Slice0.lean ====
section
/-! SUPPORT. Tests of single steps, with the expected results of 95_test_vectors.md (a test's comment names the table or example),
the smoke tests of the two well-formedness checks, and a witness for the hypotheses of every statement that has any. -/

namespace Sys2Proof.Tests

open Sys2Proof Sys2Proof.Machine

/-- The next state of an outcome, if it is one. -/
def nextOf : Result → Option State
  | .next t => some t
  | _ => none

/-- The fault of an outcome, if it is one. -/
def faultOf : Result → Option Fault
  | .fault f => some f
  | _ => none

/-- The next state of one step with the word placed at `PC`. -/
def after (s : State) (w : Nat) : Option State := nextOf (step (s.withFetchWord 16 w))

/-- The fault of one step with the word placed at `PC`. -/
def faultAfter (s : State) (w : Nat) : Option Fault := faultOf (step (s.withFetchWord 16 w))

/-- Reset with registers 1 and 2 and the flag set. -/
def regs (v1 v2 flag : Byte) : State := ((State.reset.setReg 1 v1).setReg 2 v2).setReg 0xF flag

/-- Reset with the index register and register 0 set. -/
def idx (i : Word) (v0 : Byte) : State := (State.reset.setI i).setReg 0 v0

/-- Reset with bytes stored at an address. -/
def withBytes (s : State) (a : Nat) (bs : List Byte) : State := s.setMem (Memory.writeBytes s.mem a bs)

/-- The snapshot with these keys pressed. -/
def keys (ks : List Nat) : Vector Bool 16 := Vector.ofFn fun j => ks.contains j.val

/-! ### Well-formedness: an ill-formed word of each class and an oversize image are refused (R53, R143). -/

theorem test_isInstrWord_refuses_unknown :
    ([0x0000, 0x00E1, 0x0123, 0x01E0, 0x01EE, 0x5121, 0x8127, 0x812E, 0x8128, 0x812F] ++
     [0x9001, 0xE000, 0xE09F, 0xE0A0, 0xF000, 0xF01F, 0xF075, 0xF085, 0xFFFF]).all (fun w => !isInstrWord w) = true := by
  decide

theorem test_isInstrWord_accepts : [0x00E0, 0x00EE, 0x5AB0, 0x8AB6, 0x9AB0, 0xEA9E, 0xFA65].all isInstrWord = true := by decide

theorem test_imageFits_refuses_oversize : imageFits (List.replicate 3585 0) = false := by
  rw [imageFits, List.length_replicate]; decide

theorem test_imageFits_accepts_full : imageFits (List.replicate 3584 0) = true := by
  rw [imageFits, List.length_replicate]; decide

/-! ### Decoding: each constructor from its pattern of R50 with distinct nibbles (E9). -/

theorem test_decode_classes_0_to_7 :
    decode 0x00E0 = .instr .cls ∧ decode 0x00EE = .instr .ret ∧ decode 0x1ABC = .instr (.jp 0xABC) ∧
    decode 0x2ABC = .instr (.call 0xABC) ∧ decode 0x3AB4 = .instr (.seImm 0xA 0xB4) ∧
    decode 0x4AB4 = .instr (.sneImm 0xA 0xB4) ∧ decode 0x5AB0 = .instr (.seReg 0xA 0xB) ∧
    decode 0x6A02 = .instr (.ldImm 0xA 0x02) ∧ decode 0x7AB4 = .instr (.addImm 0xA 0xB4) := by decide

theorem test_decode_classes_8_and_9 :
    decode 0x8AB0 = .instr (.ldReg 0xA 0xB) ∧ decode 0x8AB1 = .instr (.orReg 0xA 0xB) ∧
    decode 0x8AB2 = .instr (.andReg 0xA 0xB) ∧ decode 0x8AB3 = .instr (.xorReg 0xA 0xB) ∧
    decode 0x8AB4 = .instr (.addReg 0xA 0xB) ∧ decode 0x8AB5 = .instr (.subReg 0xA 0xB) ∧
    decode 0x8AB6 = .instr (.shr 0xA 0xB) ∧ decode 0x9AB0 = .instr (.sneReg 0xA 0xB) := by decide

theorem test_decode_classes_A_to_E :
    decode 0xA200 = .instr (.ldI 0x200) ∧ decode 0xBABC = .instr (.jpV0 0xABC) ∧ decode 0xCAB4 = .instr (.rnd 0xA 0xB4) ∧
    decode 0xD123 = .instr (.drw 0x1 0x2 0x3) ∧ decode 0xEA9E = .instr (.skp 0xA) ∧ decode 0xEAA1 = .instr (.sknp 0xA) := by
  decide

theorem test_decode_class_F :
    decode 0xFA07 = .instr (.ldVxDT 0xA) ∧ decode 0xFA0A = .instr (.ldVxK 0xA) ∧ decode 0xFA15 = .instr (.ldDTVx 0xA) ∧
    decode 0xFA18 = .instr (.ldSTVx 0xA) ∧ decode 0xFA1E = .instr (.addI 0xA) ∧ decode 0xFA29 = .instr (.ldF 0xA) ∧
    decode 0xFA33 = .instr (.ldB 0xA) ∧ decode 0xFA55 = .instr (.ldMemVx 0xA) ∧ decode 0xF365 = .instr (.ldVxMem 0x3) := by
  decide

theorem test_decode_unknown : decode 0x8127 = .unknown 0x8127 ∧ decode 0x01E0 = .unknown 0x01E0 := by decide

theorem test_decodeTableWord : decodeTableWord 16 0xD123 = some (.drw 0x1 0x2 0x3) ∧ decodeTableWord 16 0x0000 = none := by decide

/-! ### Control flow (table 2.1) -/

theorem test_ret : (after { State.reset with pc := 0x212, sp := 1, stack := State.reset.stack.set 0 0x206 } 0x00EE).map
    (fun t => (t.pc, t.sp)) = some (0x206, 0) := by decide

theorem test_ret_underflow : faultAfter { State.reset with pc := 0x212 } 0x00EE = some (.stackUnderflow 0x212) := by decide

theorem test_jp_odd : (after State.reset 0x1201).map (·.pc) = some 0x201 := by decide

theorem test_jp_top : (after State.reset 0x1FFF).map (·.pc) = some 0xFFF := by decide

theorem test_jpV0_register_0 : (after ((State.reset.setReg 0 1).setReg 2 0x80) 0xB2FF).map (·.pc) = some 0x300 := by decide

theorem test_jpV0_not_reduced : (after (State.reset.setReg 0 0xFF) 0xBFFF).map (·.pc) = some 0x10FE := by decide

theorem test_call : (after { State.reset with pc := 0x204 } 0x2210).map (fun t => (t.pc, t.sp, t.stack[0])) =
    some (0x210, 1, 0x206) := by decide

theorem test_call_overflow : faultAfter { State.reset with pc := 0x400, sp := 16 } 0x2ABC = some (.stackOverflow 0x400) := by
  decide

theorem test_skip_imm : (after (State.reset.setReg 3 0x42) 0x3342).map (·.pc) = some 0x204 ∧
    (after (State.reset.setReg 3 0x42) 0x3343).map (·.pc) = some 0x202 := by decide

theorem test_skip_not_imm : (after (State.reset.setReg 3 0x42) 0x4342).map (·.pc) = some 0x202 ∧
    (after (State.reset.setReg 3 0x42) 0x4343).map (·.pc) = some 0x204 := by decide

theorem test_skip_reg : (after (regs 7 7 0) 0x5120).map (·.pc) = some 0x204 ∧
    (after (regs 7 8 0) 0x5120).map (·.pc) = some 0x202 := by decide

theorem test_skip_not_reg : (after (regs 7 8 0) 0x9120).map (·.pc) = some 0x204 ∧
    (after (regs 7 7 0) 0x9120).map (·.pc) = some 0x202 := by decide

/-! ### Register arithmetic and logic (table 2.2) -/

theorem test_ldImm : (after State.reset 0x6A02).map (fun t => (t.reg 0xA, t.pc)) = some (0x02, 0x202) := by decide

theorem test_addImm_keeps_flag : (after (regs 0xF0 0 0) 0x7120).map (fun t => (t.reg 1, t.reg 0xF)) = some (0x10, 0) := by decide

theorem test_ldReg : (after (regs 0 0x77 0) 0x8120).map (fun t => (t.reg 1, t.reg 2)) = some (0x77, 0x77) := by decide

theorem test_or_keeps_flag : (after (regs 0x0F 0xF0 1) 0x8121).map (fun t => (t.reg 1, t.reg 0xF)) = some (0xFF, 1) := by decide

theorem test_and : (after (regs 0x3C 0x0F 0) 0x8122).map (·.reg 1) = some 0x0C := by decide

theorem test_xor : (after (regs 0xFF 0x0F 0) 0x8123).map (·.reg 1) = some 0xF0 := by decide

theorem test_addReg_carry : (after (regs 0xFF 0x02 0) 0x8124).map (fun t => (t.reg 1, t.reg 0xF)) = some (0x01, 1) ∧
    (after (regs 0xFF 0x00 1) 0x8124).map (fun t => (t.reg 1, t.reg 0xF)) = some (0xFF, 0) := by decide

theorem test_addReg_flag_last : (after (regs 0x02 0 0xFF) 0x8F14).map (·.reg 0xF) = some 1 ∧
    (after (regs 0xFF 0 0x01) 0x81F4).map (fun t => (t.reg 1, t.reg 0xF)) = some (0x00, 1) := by decide

theorem test_sub_wraps : (after (regs 3 5 0) 0x8125).map (fun t => (t.reg 1, t.reg 0xF)) = some (0xFE, 0) := by decide

theorem test_sub_equal_flag_0 : (after (regs 7 7 1) 0x8125).map (fun t => (t.reg 1, t.reg 0xF)) = some (0, 0) := by decide

theorem test_shr_ignores_y : (after ((regs 5 0 0).setReg 0xA 0xFF) 0x81A6).map (fun t => (t.reg 1, t.reg 0xF)) =
    some (0x02, 1) := by decide

theorem test_shr_flag_last : (after (regs 0 0 3) 0x8F06).map (·.reg 0xF) = some 1 ∧
    (after (regs 0 0 2) 0x8F06).map (·.reg 0xF) = some 0 := by decide

/-! ### The index register and memory (table 2.3) -/

theorem test_ldI : (after State.reset 0xA200).map (·.i) = some 0x200 := by decide

theorem test_addI_not_masked : (after ((idx 0xFFF 0).setReg 3 1) 0xF31E).map (fun t => (t.i, t.reg 0xF)) = some (0x1000, 1) ∧
    (after ((idx 0xF00 0).setReg 3 0xFF) 0xF31E).map (fun t => (t.i, t.reg 0xF)) = some (0xFFF, 0) := by decide

theorem test_addI_wraps : (after ((idx 0xFFFF 0).setReg 3 1) 0xF31E).map (fun t => (t.i, t.reg 0xF)) = some (0, 1) ∧
    (after ((idx 0x10 0).setReg 0xF 1) 0xFF1E).map (fun t => (t.i, t.reg 0xF)) = some (0x11, 0) := by decide

theorem test_ldF : (after ((idx 0x200 0).setReg 5 2) 0xF529).map (·.i) = some 0x00A ∧
    (after (idx 0 0xFF) 0xF029).map (·.i) = some 0x4FB := by decide

theorem test_ldB : (after (idx 0x300 0xFE) 0xF033).map (fun t => Memory.readBytes t.mem 0x300 3) = some [2, 5, 4] ∧
    (after (idx 4093 123) 0xF033).map (fun t => Memory.readBytes t.mem 4093 3) = some [1, 2, 3] := by decide

theorem test_ldB_range : faultAfter (idx 4094 123) 0xF033 = some (.addressOutOfRange 0x200 4096) ∧
    faultAfter (idx 0x2000 123) 0xF033 = some (.addressOutOfRange 0x200 8192) := by decide

theorem test_ldMemVx : (after (((regs 2 3 0).setReg 0 1).setReg 3 4 |>.setI 0x400) 0xF255).map
    (fun t => (Memory.readBytes t.mem 0x400 4, t.i)) = some ([1, 2, 3, 0], 0x400) := by decide

theorem test_ldMemVx_range : faultAfter (idx 0xFFF 0xAB) 0xF155 = some (.addressOutOfRange 0x200 4096) ∧
    (after (idx 0xFFF 0xAB) 0xF055).map (fun t => Memory.read t.mem 0xFFF) = some 0xAB := by decide

theorem test_ldVxMem : (after (withBytes ((idx 0x300 0).setReg 3 0x99) 0x300 [2, 5, 4, 7]) 0xF265).map
    (fun t => (t.reg 0, t.reg 1, t.reg 2, t.reg 3, t.i)) = some (2, 5, 4, 0x99, 0x300) := by decide

/-- Glyphs E and F of the font, then zeros (the values depend on FONT_TABLE). -/
theorem test_ldVxMem_font : (after (idx 0x46 0) 0xFF65).map (fun t => t.v.toList) =
    some [0xF0, 0x80, 0xF0, 0x80, 0xF0, 0xF0, 0x80, 0xF0, 0x80, 0x80, 0, 0, 0, 0, 0, 0] := by decide

/-! ### Timers, random, keys (table 2.4) -/

theorem test_ldVxDT : (after (State.reset.setDelay 0x2A) 0xF307).map (fun t => (t.reg 3, t.dt)) = some (0x2A, 0x2A) := by decide

theorem test_ldDTVx : (after (State.reset.setReg 0 0x3C) 0xF015).map (fun t => (t.dt, t.st)) = some (60, 0) := by decide

theorem test_ldSTVx : (after (State.reset.setReg 1 5) 0xF118).map (fun t => (t.st, t.dt)) = some (5, 0) := by decide

theorem test_rnd_draws : (after State.reset 0xC20F).map (fun t => (t.draws, t.pc)) = some (1, 0x202) := by decide

/-- `C200`: a mask of 0 gives 0 whatever the byte is. -/
theorem test_rnd_mask_0 : ∃ t, exec (.rnd 2 0x00) State.reset = .next t ∧ t.reg 2 = 0 :=
  ⟨_, rfl, BitVec.and_zero⟩

theorem test_skp : (after { State.reset.setReg 4 0x1A with key := keys [10] } 0xE49E).map (·.pc) = some 0x204 ∧
    (after { State.reset.setReg 4 0x0A with key := keys [11] } 0xE49E).map (·.pc) = some 0x202 := by decide

theorem test_sknp : (after { State.reset.setReg 4 0x0A with key := keys [10] } 0xE4A1).map (·.pc) = some 0x202 ∧
    (after (State.reset.setReg 4 0x0A) 0xE4A1).map (·.pc) = some 0x204 := by decide

theorem test_ldVxK_waits : (after State.reset 0xF20A).map (fun t => (t.pc, t.reg 2)) = some (0x200, 0) ∧
    stepReport (State.reset.withFetchWord 16 0xF20A) = .waiting := by decide

theorem test_ldVxK_lowest : (after { State.reset with key := keys [3, 7] } 0xF20A).map (fun t => (t.pc, t.reg 2)) =
    some (0x202, 3) ∧ stepReport ({ State.reset with key := keys [3, 7] }.withFetchWord 16 0xF20A) = .done := by decide

/-! ### Display (table 2.5, E3, E6) -/

/-- Reset with one cell set. -/
def oneCell (xx : Fin 64) (yy : Fin 32) : State := State.reset.setDisp (Display.toggle State.reset.disp xx yy).1

theorem test_cls : (after (oneCell 5 7) 0x00E0).map (fun t => (t.disp, t.pc)) = some (State.reset.disp, 0x202) := by decide

/-- Reset with one sprite byte at 0x300, `I` there, and the corner in registers 0 and 1. -/
def sprite (b x y : Byte) : State := withBytes ((idx 0x300 x).setReg 1 y) 0x300 [b]

theorem test_drw_wraps_columns : (after (sprite 0x81 62 0) 0xD011).map
    (fun t => (Display.pixel t.disp 62 0, Display.pixel t.disp 5 0, Display.pixel t.disp 63 0, t.reg 0xF)) =
    some (true, true, false, 0) := by decide

theorem test_drw_collision : (after ((sprite 0xC0 62 31).setDisp (oneCell 62 31).disp) 0xD011).map
    (fun t => (Display.pixel t.disp 62 31, Display.pixel t.disp 63 31, t.reg 0xF)) = some (false, true, 1) := by decide

theorem test_drw_no_rows : (after ((idx 0xFFFF 0).setReg 0xF 1) 0xD010).map (fun t => (t.reg 0xF, t.disp)) =
    some (0, State.reset.disp) := by decide

theorem test_drw_range : faultAfter (idx 0xFFF 0) 0xD002 = some (.addressOutOfRange 0x200 4096) ∧
    (after (withBytes (idx 0xFFF 0) 0xFFF [0x80]) 0xD001).map (fun t => Display.pixel t.disp 0 0) = some true := by decide

/-! ### Fetch, unknown words (table 2.6) and host operations (table 2.7) -/

theorem test_unknown_word : faultAfter State.reset 0x01E0 = some (.unknownOpcode 0x200 0x01E0) ∧
    faultOf (step State.reset) = some (.unknownOpcode 0x200 0x0000) := by decide

theorem test_fetch_bound : faultOf (step { State.reset with pc := 0xFFF }) = some (.addressOutOfRange 0xFFF 4096) ∧
    faultOf (step { State.reset with pc := 0x1000 }) = some (.addressOutOfRange 0x1000 4096) ∧
    faultOf (step { State.reset with pc := 0x10FE }) = some (.addressOutOfRange 0x10FE 4350) := by decide

theorem test_fetch_odd_and_last : (after { State.reset with pc := 0x201 } 0x6011).map (fun t => (t.reg 0, t.pc)) =
    some (0x11, 0x203) ∧ (after { State.reset with pc := 0xFFE } 0x6011).map (fun t => (t.reg 0, t.pc)) =
    some (0x11, 0x1000) := by decide

theorem test_tick : (fun t : State => (t.dt, t.st)) (tickTimers ((State.reset.setDelay 5).setSound 1)) = (4, 0) ∧
    (fun t : State => (t.dt, t.st)) (tickTimers (State.reset.setDelay 255)) = (254, 0) := by decide

theorem test_load_program : (loadProgram [0x12, 0x00] State.reset).map (fun t => (t.mem, t.pc)) =
    some ([(0x200, 0x12)], 0x200) := by decide

/-- A session just after the first reset. -/
def freshSession : Session := { core := State.reset, phase := .fresh }

theorem test_load_after_step_is_no_move :
    (hostOp (.loadProgram []) (hostOp .step freshSession).2).1 = .noSuchMove ∧
    (hostOp .step { core := State.reset, phase := .off }).1 = .noSuchMove := by decide

/-- A fault makes a schedule unsafe; a step that completes does not (R122, U14). -/
theorem test_safe_schedule : SafeSchedule [.loadProgram [0x12, 0x00], .step, .tickTimers] freshSession = true ∧
    SafeSchedule [.step] freshSession = false := by decide

/-- The font glyph of the digit 7 at 0x023 (program P7; depends on FONT_TABLE). -/
theorem test_font : Memory.readBytes State.reset.mem 0x023 5 = [0xF0, 0x10, 0x20, 0x40, 0x40] ∧ fontTable.length = 80 := by decide

/-! ### Witnesses: states and operands that meet the hypotheses of each statement that has any -/

theorem witness_StepRunsDecodedInstr : (State.reset.withFetchWord 16 0x6A02).pc.toNat ≤ 4094 ∧
    decode ((State.reset.withFetchWord 16 0x6A02).wordAt (State.reset.withFetchWord 16 0x6A02).pc.toNat) =
      .instr (.ldImm 0xA 0x02) := by decide

theorem witness_FetchedWordIsBigEndian : State.reset.pc.toNat ≤ 4094 ∧
    ({ State.reset with pc := 0xFFE } : State).pc.toNat ≤ 4094 := by decide

theorem witness_FetchBeyond4094Faults : 4094 < ({ State.reset with pc := 0xFFF } : State).pc.toNat ∧
    4094 < ({ State.reset with pc := 0x1000 } : State).pc.toNat := by decide

theorem witness_UnknownWordFaults : State.reset.pc.toNat ≤ 4094 ∧
    isInstrWord (State.reset.wordAt State.reset.pc.toNat) = false := by decide

theorem witness_FaultLeavesStateUnchanged : freshSession.phase ≠ .off ∧
    step freshSession.core = .fault (.unknownOpcode 0x200 0x0000) := ⟨by decide, rfl⟩

theorem witness_StepKeepsInv : (State.reset.withFetchWord 16 0x2210).Inv ∧
    ∃ t, step (State.reset.withFetchWord 16 0x2210) = .next t := ⟨by decide, _, rfl⟩

theorem witness_EveryScheduleKeepsInv : freshSession.core.Inv := by decide

theorem witness_ExecChangesOnlyListedState :
    (∃ t, exec (.addReg 1 2) State.reset = .next t) ∧ ∃ t, exec .ret { State.reset with sp := 1 } = .next t :=
  ⟨⟨_, rfl⟩, ⟨_, rfl⟩⟩

theorem witness_FlagIsZeroOrOne : (∃ t, exec (.addReg 1 2) State.reset = .next t) ∧
    (∃ t, exec (.subReg 1 2) State.reset = .next t) ∧ (∃ t, exec (.shr 0xF 2) State.reset = .next t) ∧
    (∃ t, exec (.addI 1) State.reset = .next t) ∧ ∃ t, exec (.drw 1 2 15) State.reset = .next t :=
  ⟨⟨_, rfl⟩, ⟨_, rfl⟩, ⟨_, rfl⟩, ⟨_, rfl⟩, ⟨_, rfl⟩⟩

theorem witness_StepNeverTicks : (∃ t, step (State.reset.withFetchWord 16 0x6A02) = .next t) ∧
    (∃ t, step (State.reset.withFetchWord 16 0xF015) = .next t) ∧ ∃ t, step (State.reset.withFetchWord 16 0xF118) = .next t :=
  ⟨⟨_, rfl⟩, ⟨_, rfl⟩, ⟨_, rfl⟩⟩

theorem witness_StackDepthFollowsCallsAndReturns : (∃ t, exec (.call 0x300) State.reset = .next t) ∧
    (∃ t, exec .ret { State.reset with sp := 1 } = .next t) ∧ ∃ t, exec .cls State.reset = .next t :=
  ⟨⟨_, rfl⟩, ⟨_, rfl⟩, ⟨_, rfl⟩⟩

theorem witness_CallPushesAndJumps : ({ State.reset with sp := 15 } : State).sp.val < 16 := by decide

theorem witness_CallThenRetComesBack : ({ State.reset with sp := 15 } : State).sp.val < 16 := by decide

theorem witness_RetPopsIntoPc : 0 < ({ State.reset with sp := 16 } : State).sp.val ∧
    (15 : Fin 16).val + 1 = ({ State.reset with sp := 16 } : State).sp.val := by decide

theorem witness_SkipsOnKey : (10 : Fin 16).val = ((State.reset.setReg 4 0x1A).reg 4).toNat % 16 := by decide

theorem witness_register_other_than_flag : (0xE : Reg) ≠ vf := by decide

theorem witness_StoreDigits : (idx 4093 123).i.toNat + 2 ≤ 4095 := by decide

theorem witness_StoreRegisters : (idx 0xFF0 0).i.toNat + (0xF : Reg).toNat ≤ 4095 := by decide

theorem witness_LoadRegisters : (idx 0xFF0 0).i.toNat + (0xF : Reg).toNat ≤ 4095 := by decide

theorem witness_StoredCodeIsFetched : (idx 0x202 0x6A).i = (idx 0x202 0x6A).pc + 2 ∧ 1 ≤ (1 : Reg).toNat ∧
    (idx 0x202 0x6A).i.toNat + (1 : Reg).toNat ≤ 4095 := by decide

theorem witness_CanonicalMemoryIsUnique : Memory.wf [(0x300, 1)] = true ∧ Memory.wf (Memory.write [] 0x300 1) = true ∧
    ∀ a, Memory.read [(0x300, 1)] a = Memory.read (Memory.write [] 0x300 1) a :=
  ⟨by decide, by decide, fun _ => rfl⟩

theorem witness_WaitForKey_none : ∀ k : Fin 16, State.reset.key[k] = false := by decide

theorem witness_WaitForKey_pressed : ({ State.reset with key := keys [3, 7] } : State).key[(3 : Fin 16)] = true ∧
    ∀ j : Fin 16, j < 3 → ({ State.reset with key := keys [3, 7] } : State).key[j] = false := by decide

theorem witness_WaitingExactlyWhen : stepReport (State.reset.withFetchWord 16 0xF20A) = .waiting := by decide

theorem witness_DisplayPrimitives_linear : (2046 : Fin 2048).val = (62 : Fin 64).val + (31 : Fin 32).val * 64 := by decide

theorem witness_DisplayPrimitives_written :
    (∃ t, exec .cls (oneCell 5 7) = .next t ∧ t.disp ≠ (oneCell 5 7).disp) ∧
    ∃ t, exec (.drw 0 1 1) (sprite 0xC0 62 31) = .next t ∧ t.disp ≠ (sprite 0xC0 62 31).disp :=
  ⟨⟨_, rfl, by decide⟩, ⟨_, rfl, by decide⟩⟩

theorem witness_DrawSprite : ((0 : Nibble) = 0 ∨ (idx 0xFFFF 0).i.toNat + (0 : Nibble).toNat - 1 ≤ 4095) ∧
    ((15 : Nibble) = 0 ∨ (idx 0xFF1 0).i.toNat + (15 : Nibble).toNat - 1 ≤ 4095) := by decide

theorem witness_DrawTwiceRestores : (0 : Reg) ≠ vf ∧ (1 : Reg) ≠ vf ∧
    ∃ t, exec (.drw 0 1 1) (sprite 0xC0 62 31) = .next t := ⟨by decide, by decide, _, rfl⟩

theorem witness_TickTakesEachTimerDown : (State.reset.setDelay 5).dt = 5 ∧ freshSession.phase ≠ .off := by decide

theorem witness_SetKeysReplacesSnapshot : freshSession.phase ≠ .off ∧ HostOp.step ≠ .reset ∧ ∀ k, HostOp.step ≠ .setKeys k :=
  ⟨by decide, by decide, fun _ => HostOp.noConfusion⟩

/-- A host before its first step, with a table word where that step fetches. -/
def hostAt (w : Nat) : Session := { core := State.reset.withFetchWord 16 w, phase := .loaded }

theorem witness_HostOperationsReply_waiting : (hostAt 0xF20A).phase ≠ .off ∧
    (∃ t, step (hostAt 0xF20A).core = .next t) ∧ fetchInstr (hostAt 0xF20A).core = .ok (.ldVxK 2) ∧
    ∀ k : Fin 16, (hostAt 0xF20A).core.key[k] = false := ⟨by decide, ⟨_, rfl⟩, rfl, by decide⟩

theorem witness_HostOperationsReply_done : (hostAt 0x6A02).phase ≠ .off ∧
    (∃ t, step (hostAt 0x6A02).core = .next t) ∧
    ¬ ((∃ x, fetchInstr (hostAt 0x6A02).core = .ok (.ldVxK x)) ∧ ∀ k : Fin 16, (hostAt 0x6A02).core.key[k] = false) :=
  ⟨by decide, ⟨_, rfl⟩, fun h => h.1.elim fun _ e => nomatch e⟩

theorem witness_LoadProgramPlacesImage : (List.replicate 3584 (0 : Byte)).length ≤ 3584 ∧
    3584 < (List.replicate 3585 (0 : Byte)).length := by
  rw [List.length_replicate, List.length_replicate]; decide

theorem witness_LoadOnlyOnceAfterReset : freshSession.phase = .fresh ∧
    ({ core := State.reset, phase := .running } : Session).phase ≠ .fresh ∧
    ({ core := State.reset, phase := .off } : Session).phase ≠ .fresh ∧
    HostOp.tickTimers ≠ .reset ∧ HostOp.tickTimers ≠ .step ∧ ∀ im, HostOp.tickTimers ≠ .loadProgram im :=
  ⟨by decide, by decide, by decide, by decide, by decide, fun _ => HostOp.noConfusion⟩

theorem witness_FinishedProgramStays : finished (State.reset.withFetchWord 16 0x1200) = true := by decide

theorem witness_StepIgnoresSoundTimer : (∃ t, step (State.reset.withFetchWord 16 0xF118) = .next t) ∧
    ∃ f, step State.reset = .fault f := ⟨⟨_, rfl⟩, ⟨_, rfl⟩⟩

theorem witness_StepIgnoresDeadStack :
    (∀ k : Fin 16, k.val < ({ State.reset with sp := 1 } : State).sp.val →
      (State.reset.stack.set 1 0x300)[k] = ({ State.reset with sp := 1 } : State).stack[k]) ∧
    (∃ t, step ({ State.reset with sp := 1 }.withFetchWord 16 0x00EE) = .next t) ∧ ∃ f, step State.reset = .fault f :=
  ⟨by decide, ⟨_, rfl⟩, ⟨_, rfl⟩⟩

end Sys2Proof.Tests
end

section
/-! PROOFS. 20_memory.md: the bytes of memory as the step fetches them. -/

namespace Sys2Proof.Machine

open Sys2Proof

/-- The word at an address as a number: the byte at the lower address is the more significant (R33). -/
theorem State.wordAt_toNat (s : State) (a : Nat) :
    (s.wordAt a).toNat = (Memory.read s.mem a).toNat * 256 + (Memory.read s.mem (a + 1)).toNat :=
  wordOfBytes_toNat _ _

/-- Settles O7: within its bound the fetch answers the word at `PC`, whose value `State.wordAt_toNat` gives; the two
byte pairs of R33 are closed evaluations of the decoder. -/
theorem fetchedWordIsBigEndian : Obligations.FetchedWordIsBigEndian := by
  unfold Obligations.FetchedWordIsBigEndian
  refine ⟨fun s inBound => ?_, ?ldVA, ?ldI⟩
  · exact ⟨s.wordAt s.pc.toNat, fetch_of_inside s inBound, s.wordAt_toNat s.pc.toNat⟩
  case ldVA => decide
  case ldI => decide

end Sys2Proof.Machine
end

section
/-! PROOFS. 30_encoding.md R58: encoding what a word decodes to gives the word back. -/

namespace Sys2Proof

/-- What is decoded still determines the word `w`: an instruction encodes to it, the unknown tag carries it (R49, R58). -/
def Decoded.Restores (w : Word) : Decoded → Prop
  | .instr i => encode i = w
  | .unknown u => u = w

@[simp] theorem Decoded.restores_instr (w : Word) (i : Instr) : (Decoded.instr i).Restores w ↔ encode i = w := Iff.rfl

@[simp] theorem Decoded.restores_unknown (w u : Word) : (Decoded.unknown u).Restores w ↔ u = w := Iff.rfl

/-- A test of the decoder restores the word when both its outcomes do. -/
theorem Decoded.restores_ite {w : Word} {c : Prop} [Decidable c] {d e : Decoded} (accept : c → d.Restores w)
    (reject : e.Restores w) : (if c then d else e).Restores w := by
  split
  case isTrue h => exact accept h
  case isFalse => exact reject

/-! The word from its class and the other fields of its format (R48). -/

theorem formA_of_opField {w : Word} {op : Nibble} (h : opField w = op) : formA op (nnnField w) = w :=
  h ▸ (word_eq_formA w).symm

theorem formXK_of_opField {w : Word} {op : Nibble} (h : opField w = op) : formXK op (xField w) (kkField w) = w :=
  h ▸ (word_eq_formXK w).symm

theorem formXY_of_opField {w : Word} {op : Nibble} (h : opField w = op) :
    formXY op (xField w) (yField w) (nField w) = w :=
  h ▸ (word_eq_formXY w).symm

/-! The classes that test a further field (R49). A test that succeeds fixes that field, and the encoder writes the
tested value back. -/

theorem decodeClass0_restores (w : Word) : (decodeClass0 w).Restores w := by
  unfold decodeClass0
  repeat refine Decoded.restores_ite Eq.symm ?_
  rfl

theorem decodeClass8_restores {w : Word} {x y : Reg} {n : Nibble} (h : formXY 0x8 x y n = w) :
    (decodeClass8 w x y n).Restores w := by
  unfold decodeClass8
  repeat refine Decoded.restores_ite (fun tested => (congrArg (formXY 0x8 x y) tested.symm).trans h) ?_
  rfl

theorem decodeClassE_restores {w : Word} {x : Reg} {kk : Byte} (h : formXK 0xE x kk = w) :
    (decodeClassE w x kk).Restores w := by
  unfold decodeClassE
  repeat refine Decoded.restores_ite (fun tested => (congrArg (formXK 0xE x) tested.symm).trans h) ?_
  rfl

theorem decodeClassF_restores {w : Word} {x : Reg} {kk : Byte} (h : formXK 0xF x kk = w) :
    (decodeClassF w x kk).Restores w := by
  unfold decodeClassF
  repeat refine Decoded.restores_ite (fun tested => (congrArg (formXK 0xF x) tested.symm).trans h) ?_
  rfl

/-- Classes 5 and 9: the one instruction has the low nibble 0. -/
theorem decodeXY0_restores {w : Word} {op n : Nibble} {x y : Reg} {i : Instr} (h : formXY op x y n = w)
    (encoded : encode i = formXY op x y 0x0) : (if n = 0x0 then .instr i else .unknown w : Decoded).Restores w :=
  Decoded.restores_ite (fun tested => encoded.trans ((congrArg (formXY op x y) tested.symm).trans h)) rfl

/-- Class by class: the fields the decoder reads are all the fields of the word's format. -/
theorem decodeClass_restores (w : Word) (op : Nibble) (h : opField w = op) : (decodeClass op w).Restores w := by
  have viaA := formA_of_opField h
  have viaXK := formXK_of_opField h
  have viaXY := formXY_of_opField h
  unfold decodeClass
  split
  -- `h_k` is the class `k - 1`, and `h_17` the default arm
  case h_1 => exact decodeClass0_restores w
  case h_6 | h_10 => exact decodeXY0_restores viaXY rfl
  case h_9 => exact decodeClass8_restores viaXY
  case h_15 => exact decodeClassE_restores viaXK
  case h_16 => exact decodeClassF_restores viaXK
  case h_2 | h_3 | h_11 | h_12 => exact viaA
  case h_4 | h_5 | h_7 | h_8 | h_13 => exact viaXK
  case h_14 => exact viaXY
  case h_17 => rfl

theorem decode_restores (w : Word) : (decode w).Restores w := decodeClass_restores w (opField w) rfl

/-- R58: no bit of the word is lost, the `y` that SHR ignores included. -/
theorem encode_of_decode {w : Word} {i : Instr} (h : decode w = .instr i) : encode i = w := by
  simpa [h] using decode_restores w

/-- R49: the unknown tag carries the word that was decoded. -/
theorem eq_of_decode_unknown {w u : Word} (h : decode w = .unknown u) : u = w := by
  simpa [h] using decode_restores w

/-- Settles O2: a decoded instruction encodes to its word, so two words that decode to it are one; an unknown tag carries
its word. -/
theorem encodeOfDecode : Obligations.EncodeOfDecode := by
  unfold Obligations.EncodeOfDecode
  intro w
  cases hw : decode w with
  | instr i =>
    have encoded : encode i = w := encode_of_decode hw
    exact .inl ⟨i, rfl, encoded, fun u hu => (encode_of_decode hu).symm.trans encoded⟩
  | unknown u => exact .inr (congrArg Decoded.unknown (eq_of_decode_unknown hw))

end Sys2Proof
end

section
/-! PROOFS. 42_alu.md R82: LD Vx, kk. The class of a word by its mask, the frame of a register write, and the statement. -/

namespace Sys2Proof

/-- The mask 0xF000 keeps the class of a word and nothing else (R47, R50). -/
theorem mask_eq_iff_opField (w : Word) (op : Nibble) : w &&& 0xF000 = formXK op 0 0 ↔ opField w = op := by
  have masked : w &&& 0xF000 = formXK (opField w) 0 0 :=
    (congrArg (· &&& 0xF000) (word_eq_formXK w)).trans (formXK_mask (opField w) (xField w) (kkField w))
  rw [masked]
  constructor
  · intro h
    simpa only [opField_formXK] using congrArg opField h
  · intro h
    rw [h]

/-- R50, R82: the words of LD Vx, kk are those of class 6. -/
theorem decode_eq_ldImm_iff (w : Word) : decode w = .instr (.ldImm (xField w) (kkField w)) ↔ opField w = 0x6 := by
  constructor
  · intro h
    have encoded : formXK 0x6 (xField w) (kkField w) = w := encode_of_decode h
    rw [← encoded, opField_formXK]
  · intro h
    rw [decode, h]
    rfl

end Sys2Proof

namespace Sys2Proof.Machine

open Sys2Proof

/-- Writing a register leaves every other register and every other piece of state (10_state.md R26). -/
theorem frame_setReg (s : State) (x : Reg) (b : Byte) : Frame s (s.setReg x b) [x] [] := by
  refine ⟨fun r other => ?regs, fun p _ => ?pieces, rfl⟩
  case regs => exact s.reg_setReg_ne b (List.ne_of_not_mem_cons other)
  case pieces => cases p <;> simp [Kept]

/-- Moving `PC` on keeps a frame, which does not speak of `PC`. -/
theorem Frame.advance {s t : State} {regs : List Reg} {written : List Piece} (h : Frame s t regs written) :
    Frame s t.advance regs written := by
  obtain ⟨otherRegs, otherPieces, keys⟩ := h
  refine ⟨otherRegs, fun p hp => ?_, keys⟩
  have kept : Kept s t p := otherPieces p hp
  cases p <;> exact kept

/-- LD Vx, kk writes its register and moves `PC` on (R82). -/
theorem exec_ldImm (x : Reg) (kk : Byte) (s : State) : exec (.ldImm x kk) s = .next (s.setReg x kk).advance := rfl

/-- Settles O28: the mask and the decoder both say that the word is of class 6; the instruction is one register write
and the move to `PC` + 2. -/
theorem setImmediate : Obligations.SetImmediate := by
  unfold Obligations.SetImmediate
  refine ⟨fun w => ?encoding, ?sample, fun x kk s => ?effect⟩
  case encoding => exact (mask_eq_iff_opField w 0x6).trans (decode_eq_ldImm_iff w).symm
  case sample => decide
  case effect =>
    exact ⟨(s.setReg x kk).advance, exec_ldImm x kk s, s.reg_setReg_self x kk, rfl, (frame_setReg s x kk).advance⟩

end Sys2Proof.Machine
end

section
/-! PROOFS. 43_index_memory.md R94: LD I, nnn. The class of a word by its mask, the frame of a write of `I`, and the statement. -/

namespace Sys2Proof

/-- R50, R94: the words of LD I, nnn are those of class A. -/
theorem decode_eq_ldI_iff (w : Word) : decode w = .instr (.ldI (nnnField w)) ↔ opField w = 0xA := by
  constructor
  · intro h
    have encoded : formA 0xA (nnnField w) = w := encode_of_decode h
    rw [← encoded, opField_formA]
  · intro h
    rw [decode, h]
    rfl

end Sys2Proof

namespace Sys2Proof.Machine

open Sys2Proof

/-- An address loses nothing in the wider `I` or `PC` (R94): every `nnn` is legal. -/
@[simp] theorem toNat_zextAddr (nnn : Addr) : (zextAddr nnn).toNat = nnn.toNat := BitVec.toNat_setWidth_of_le (by decide)

/-- Writing `I` leaves every general register and every other piece of state (10_state.md R26). -/
theorem frame_setI (s : State) (a : Word) : Frame s (s.setI a) [] [.index] := by
  refine ⟨fun r _ => s.reg_setI a r, fun p other => ?_, rfl⟩
  cases p
  case index => exact absurd (List.mem_singleton_self _) other
  all_goals simp [Kept]

/-- LD I, nnn writes `I` and moves `PC` on (R94). -/
theorem exec_ldI (nnn : Addr) (s : State) : exec (.ldI nnn) s = .next (s.setI (zextAddr nnn)).advance := rfl

/-- Settles O35: the mask and the decoder both say that the word is of class A; the instruction is one write of `I` and
the move to `PC` + 2. -/
theorem setIndex : Obligations.SetIndex := by
  unfold Obligations.SetIndex
  refine ⟨fun w => ?encoding, ?sample, fun nnn s => ?effect⟩
  case encoding => exact (mask_eq_iff_opField w 0xA).trans (decode_eq_ldI_iff w).symm
  case sample => decide
  case effect =>
    exact ⟨(s.setI (zextAddr nnn)).advance, exec_ldI nnn s, toNat_zextAddr nnn, rfl, (frame_setI s _).advance⟩

end Sys2Proof.Machine
end

section
/-! PROOFS. 60_exceptions.md R126 and R134: the tick of the two timers, the moves of a host that has reset the core, and the
statement. -/

namespace Sys2Proof.Machine

open Sys2Proof

/-- One tick is subtraction of 1, stopping at 0 (R126). -/
@[simp] theorem toNat_tickDown (t : Byte) : (tickDown t).toNat = t.toNat - 1 := by
  unfold tickDown
  split
  next zero => simp [zero]
  next positive =>
    have : t.toNat ≠ 0 := fun h => positive (BitVec.eq_of_toNat_eq h)
    exact BitVec.toNat_sub_of_le (BitVec.le_def.2 (Nat.one_le_iff_ne_zero.2 this))

@[simp] theorem tickTimers_dt (s : State) : (tickTimers s).dt = tickDown s.dt := rfl
@[simp] theorem tickTimers_st (s : State) : (tickTimers s).st = tickDown s.st := rfl
@[simp] theorem tickTimers_pc (s : State) : (tickTimers s).pc = s.pc := rfl
@[simp] theorem tickTimers_key (s : State) : (tickTimers s).key = s.key := rfl

/-- A tick leaves every general register and every piece of state but the two timers (R126). -/
theorem frame_tickTimers (s : State) : Frame s (tickTimers s) [] [.delay, .sound] := by
  refine ⟨fun r _ => rfl, fun p other => ?_, rfl⟩
  cases p
  case delay => exact absurd List.mem_cons_self other
  case sound => exact absurd (List.mem_cons_of_mem _ List.mem_cons_self) other
  all_goals simp [Kept, tickTimers]

/-- The delay timer runs down by itself: `n` ticks of the core are `n` ticks of `DT` (R126: independently). -/
theorem iterate_tickTimers_dt (n : Nat) (s : State) : (tickTimers^[n] s).dt = tickDown^[n] s.dt :=
  have commutes : Function.Semiconj State.dt tickTimers tickDown := tickTimers_dt
  commutes.iterate_right n s

/-- After the first reset every operation is a move (R134). -/
theorem hostOp_of_on {h : Session} (on : h.phase ≠ .off) (op : HostOp) : hostOp op h = hostOpOn op h :=
  if_neg fun refused => on refused.1

/-- Before the first reset no other operation is a move, and the session stays (R142). -/
theorem hostOp_of_off {op : HostOp} {h : Session} (off : h.phase = .off) (other : op ≠ .reset) :
    hostOp op h = (.noSuchMove, h) :=
  if_pos ⟨off, other⟩

/-- Settles O51: the tick is two writes of the timers, each one lower and not below 0, and a delay timer at 5 runs down by
itself. -/
theorem tickTakesEachTimerDown : Obligations.TickTakesEachTimerDown := by
  unfold Obligations.TickTakesEachTimerDown
  refine ⟨fun s => ?tick, fun s five => ?fromFive, fun h on => ?reply⟩
  case tick => exact ⟨toNat_tickDown s.dt, toNat_tickDown s.st, tickTimers_pc s, frame_tickTimers s⟩
  case fromFive =>
    simp only [iterate_tickTimers_dt, five]
    decide
  case reply => exact hostOp_of_on on .tickTimers

end Sys2Proof.Machine
end

section
/-! PROOFS. 60_exceptions.md R132: set_keys. That no instruction, no step and no other operation of the host but the reset
changes the keys (10_state.md R20), and the statement. -/

namespace Sys2Proof.Machine

open Sys2Proof

/-- An access to memory that answers a next state is its continuation at the base address (20_memory.md R37). -/
theorem State.next_of_withRange {s t : State} {n : Nat} {k : Nat → Result} (h : s.withRange n k = .next t) :
    k s.i.toNat = .next t := by
  cases range : s.rangeFaults n with
  | false => rwa [s.withRange_of_inside n k range] at h
  | true =>
    rw [s.withRange_of_outside n k range] at h
    cases h

/-- A push leaves the keys. -/
theorem State.key_of_push {s t : State} {value : Word} (h : s.push value = some t) : t.key = s.key := by
  by_cases room : s.sp.val < 16
  · cases (s.push_of_room value room).symm.trans h
    rfl
  · cases (s.push_of_full value (by omega)).symm.trans h

/-- A pop leaves the keys. -/
theorem State.key_of_pop {s t : State} {value : Word} (h : s.pop = some (value, t)) : t.key = s.key := by
  by_cases used : 0 < s.sp.val
  · cases (s.pop_of_used used).symm.trans h
    rfl
  · cases (s.pop_of_empty (by omega)).symm.trans h

/-- No instruction changes the keys (10_state.md R20). The named cases branch on the stack, the keys or the range at `I`;
every other instruction always completes, by writes that the laws of the state say leave the keys. -/
theorem exec_keeps_key {i : Instr} {s t : State} (h : exec i s = .next t) : t.key = s.key := by
  cases i
  case ret =>
    simp only [exec, execRet] at h
    split at h <;> cases h
    next target u popped => exact (u.jump_key target).trans (State.key_of_pop popped)
  case call nnn =>
    simp only [exec, execCall] at h
    split at h <;> cases h
    next u pushed => exact (u.jump_key (zextAddr nnn)).trans (State.key_of_push pushed)
  case ldVxK x =>
    simp only [exec, execLdVxK] at h
    split at h <;> cases h <;> rfl
  case drw | ldB | ldMemVx | ldVxMem =>
    simp only [exec, execDrw, execLdB, execLdMemVx, execLdVxMem] at h
    cases State.next_of_withRange h
    rfl
  all_goals
    cases h
    simp

/-- No step changes the keys: it runs one instruction, or it faults and leaves the state (R119). -/
@[simp] theorem stepState_key (s : State) : (stepState s).key = s.key := by
  unfold stepState
  split
  next t answered =>
    obtain ⟨i, _, executed⟩ := exec_of_step s t answered
    exact exec_keeps_key executed
  next => rfl
  next => rfl

/-- A program load writes memory, or nothing (70_reset_and_hazards.md R143). -/
@[simp] theorem hostLoad_key (image : List Byte) (h : Session) : (hostLoad image h).2.core.key = h.core.key := by
  unfold hostLoad loadProgram
  split_ifs <;> rfl

/-- R132: once the core is on, `reset` and `set_keys` are the only operations that change the keys. -/
theorem hostOpOn_keeps_key {op : HostOp} (notReset : op ≠ .reset) (notSet : ∀ k, op ≠ .setKeys k) (h : Session) :
    (hostOpOn op h).2.core.key = h.core.key := by
  cases op with
  | reset => exact absurd rfl notReset
  | setKeys k => exact absurd rfl (notSet k)
  | loadProgram image => exact hostLoad_key image h
  | step => exact stepState_key h.core
  | tickTimers => exact tickTimers_key h.core
  | readDisplay => rfl

/-- R132: the same in every phase, for a refused operation leaves the session. -/
theorem hostOp_keeps_key {op : HostOp} (notReset : op ≠ .reset) (notSet : ∀ k, op ≠ .setKeys k) (h : Session) :
    (hostOp op h).2.core.key = h.core.key := by
  by_cases off : h.phase = .off
  · rw [hostOp_of_off off notReset]
  · rw [hostOp_of_on off]
    exact hostOpOn_keeps_key notReset notSet h

@[simp] theorem setKeys_key (k : Vector Bool 16) (s : State) : (setKeys k s).key = k := rfl
@[simp] theorem setKeys_pc (k : Vector Bool 16) (s : State) : (setKeys k s).pc = s.pc := rfl
@[simp] theorem setKeys_reg (k : Vector Bool 16) (s : State) (r : Reg) : (setKeys k s).reg r = s.reg r := rfl

/-- `set_keys` leaves every piece of state but the keys (R132). -/
theorem kept_setKeys (k : Vector Bool 16) (s : State) (p : Piece) : Kept s (setKeys k s) p := by
  cases p <;> simp [Kept, setKeys]

/-- Settles O53: `set_keys` is one write of the whole snapshot, and no instruction, tick, load or refused move writes it. -/
theorem setKeysReplacesSnapshot : Obligations.SetKeysReplacesSnapshot := by
  unfold Obligations.SetKeysReplacesSnapshot
  refine ⟨fun k s => ?write, fun k h on => ?reply, fun op h notReset notSet j => ?others⟩
  case write => exact ⟨fun j => by rw [setKeys_key], setKeys_pc k s, setKeys_reg k s, kept_setKeys k s⟩
  case reply => exact hostOp_of_on on (.setKeys k)
  case others => rw [hostOp_keeps_key notReset notSet h]

end Sys2Proof.Machine
end

section
/-! PROOFS. 30_encoding.md sections 2 to 5 and 7: what the encoder's word decodes to, the words of each row of the table, and
the words of no row. -/

namespace Sys2Proof

/-- 30_encoding.md R51: no operand of an instruction is lost in its word. The cases are the formats of R48; in each, the
decoder reads back the class and every operand. -/
theorem decode_encode (i : Instr) : decode (encode i) = .instr i := by
  cases i
  case cls | ret => decide
  case jp | call | ldI | jpV0 =>
    simp [encode, decode, decodeClass, opField_formA, nnnField_formA]
  case seImm | sneImm | ldImm | addImm | rnd =>
    simp [encode, decode, decodeClass, opField_formXK, xField_formXK, kkField_formXK]
  case skp | sknp =>
    simp [encode, decode, decodeClass, decodeClassE, opField_formXK, xField_formXK, kkField_formXK]
  case ldVxDT | ldVxK | ldDTVx | ldSTVx | addI | ldF | ldB | ldMemVx | ldVxMem =>
    simp [encode, decode, decodeClass, decodeClassF, opField_formXK, xField_formXK, kkField_formXK]
  case seReg | sneReg | drw =>
    simp [encode, decode, decodeClass, opField_formXY, xField_formXY, yField_formXY, nField_formXY]
  case ldReg | orReg | andReg | xorReg | addReg | subReg | shr =>
    simp [encode, decode, decodeClass, decodeClass8, opField_formXY, xField_formXY, yField_formXY, nField_formXY]

/-- Settles O1: format by format, the decoder reads back what the encoder wrote. -/
theorem decodeOfEncode : Obligations.DecodeOfEncode := by
  unfold Obligations.DecodeOfEncode
  exact decode_encode

/-- R58: a word decodes to an instruction exactly when it is the instruction's word. -/
theorem decode_eq_instr_iff (w : Word) (i : Instr) : decode w = .instr i ↔ encode i = w :=
  ⟨encode_of_decode, fun encoded => encoded ▸ decode_encode i⟩

/-- Every instruction's word matches the instruction's row of R50. -/
theorem encode_and_mask (i : Instr) : encode i &&& (rowOf i).mask = (rowOf i).bits := by
  cases i
  open Laws.RowMatch in
  exacts [cls, ret, jp _, call _, seImm _ _, sneImm _ _, seReg _ _, ldImm _ _, addImm _ _, ldReg _ _, orReg _ _,
    andReg _ _, xorReg _ _, addReg _ _, subReg _ _, shr _ _, sneReg _ _, ldI _, jpV0 _, rnd _ _, drw _ _ _, skp _, sknp _,
    ldVxDT _, ldVxK _, ldDTVx _, ldSTVx _, addI _, ldF _, ldB _, ldMemVx _, ldVxMem _]

/-- Every instruction belongs to a row of the table (R50). -/
theorem rowOf_mem_opcodeRows (i : Instr) : rowOf i ∈ opcodeRows := by
  simp only [opcodeRows, opcodeRowsLow, opcodeRowsHigh, List.mem_append, List.mem_cons]
  cases i <;> simp only [rowOf, true_or, or_true]

/-! The words that match a pattern of R50, mask by mask: the word is written from the fields the mask leaves free. -/

theorem formA_of_mask {w : Word} (op : Nibble) (h : w &&& 0xF000 = formXK op 0 0) : formA op (nnnField w) = w :=
  formA_of_opField ((mask_eq_iff_opField w op).1 h)

theorem formXK_of_mask {w : Word} (op : Nibble) (h : w &&& 0xF000 = formXK op 0 0) :
    formXK op (xField w) (kkField w) = w :=
  formXK_of_opField ((mask_eq_iff_opField w op).1 h)

theorem formXYN_of_mask {w : Word} (op : Nibble) (h : w &&& 0xF000 = formXK op 0 0) :
    formXY op (xField w) (yField w) (nField w) = w :=
  formXY_of_opField ((mask_eq_iff_opField w op).1 h)

theorem formX_of_mask {w : Word} (op : Nibble) (kk : Byte) (h : w &&& 0xF0FF = formXK op 0 kk) :
    formXK op (xField w) kk = w := by
  have masked : w &&& 0xF0FF = formXK (opField w) 0 (kkField w) :=
    (congrArg (· &&& 0xF0FF) (word_eq_formXK w)).trans (formX_mask (opField w) (xField w) (kkField w))
  rw [masked] at h
  have class_eq : opField w = op := by simpa only [opField_formXK] using congrArg opField h
  have second_eq : kkField w = kk := by simpa only [kkField_formXK] using congrArg kkField h
  exact second_eq ▸ formXK_of_opField class_eq

theorem formXY_of_mask {w : Word} (op n : Nibble) (h : w &&& 0xF00F = formXY op 0 0 n) :
    formXY op (xField w) (yField w) n = w := by
  have masked : w &&& 0xF00F = formXY (opField w) 0 0 (nField w) :=
    (congrArg (· &&& 0xF00F) (word_eq_formXY w)).trans (formXY_mask (opField w) (xField w) (yField w) (nField w))
  rw [masked] at h
  have class_eq : opField w = op := by simpa only [opField_formXY] using congrArg opField h
  have low_eq : nField w = n := by simpa only [nField_formXY] using congrArg nField h
  exact low_eq ▸ formXY_of_opField class_eq

theorem eq_of_full_mask {w bits : Word} (h : w &&& 0xFFFF = bits) : bits = w :=
  h.symm.trans BitVec.and_allOnes

/-- R50: a word that matches a row is the word of an instruction of that row, with the operands read off the word. -/
theorem exists_instr_of_row (w : Word) : ∀ r ∈ opcodeRows, w &&& r.mask = r.bits → ∃ i, encode i = w ∧ rowOf i = r := by
  simp only [opcodeRows, opcodeRowsLow, opcodeRowsHigh, List.forall_mem_append, List.forall_mem_cons]
  refine ⟨⟨?_, ?_, ?_, ?_, ?_, ?_, ?_, ?_, ?_, ?_, ?_, ?_, ?_, ?_, ?_, ?_, by simp⟩,
    ?_, ?_, ?_, ?_, ?_, ?_, ?_, ?_, ?_, ?_, ?_, ?_, ?_, ?_, ?_, ?_, by simp⟩ <;> intro h
  · exact ⟨.cls, eq_of_full_mask h, rfl⟩
  · exact ⟨.ret, eq_of_full_mask h, rfl⟩
  · exact ⟨.jp _, formA_of_mask 0x1 h, rfl⟩
  · exact ⟨.call _, formA_of_mask 0x2 h, rfl⟩
  · exact ⟨.seImm _ _, formXK_of_mask 0x3 h, rfl⟩
  · exact ⟨.sneImm _ _, formXK_of_mask 0x4 h, rfl⟩
  · exact ⟨.seReg _ _, formXY_of_mask 0x5 0x0 h, rfl⟩
  · exact ⟨.ldImm _ _, formXK_of_mask 0x6 h, rfl⟩
  · exact ⟨.addImm _ _, formXK_of_mask 0x7 h, rfl⟩
  · exact ⟨.ldReg _ _, formXY_of_mask 0x8 0x0 h, rfl⟩
  · exact ⟨.orReg _ _, formXY_of_mask 0x8 0x1 h, rfl⟩
  · exact ⟨.andReg _ _, formXY_of_mask 0x8 0x2 h, rfl⟩
  · exact ⟨.xorReg _ _, formXY_of_mask 0x8 0x3 h, rfl⟩
  · exact ⟨.addReg _ _, formXY_of_mask 0x8 0x4 h, rfl⟩
  · exact ⟨.subReg _ _, formXY_of_mask 0x8 0x5 h, rfl⟩
  · exact ⟨.shr _ _, formXY_of_mask 0x8 0x6 h, rfl⟩
  · exact ⟨.sneReg _ _, formXY_of_mask 0x9 0x0 h, rfl⟩
  · exact ⟨.ldI _, formA_of_mask 0xA h, rfl⟩
  · exact ⟨.jpV0 _, formA_of_mask 0xB h, rfl⟩
  · exact ⟨.rnd _ _, formXK_of_mask 0xC h, rfl⟩
  · exact ⟨.drw _ _ _, formXYN_of_mask 0xD h, rfl⟩
  · exact ⟨.skp _, formX_of_mask 0xE 0x9E h, rfl⟩
  · exact ⟨.sknp _, formX_of_mask 0xE 0xA1 h, rfl⟩
  · exact ⟨.ldVxDT _, formX_of_mask 0xF 0x07 h, rfl⟩
  · exact ⟨.ldVxK _, formX_of_mask 0xF 0x0A h, rfl⟩
  · exact ⟨.ldDTVx _, formX_of_mask 0xF 0x15 h, rfl⟩
  · exact ⟨.ldSTVx _, formX_of_mask 0xF 0x18 h, rfl⟩
  · exact ⟨.addI _, formX_of_mask 0xF 0x1E h, rfl⟩
  · exact ⟨.ldF _, formX_of_mask 0xF 0x29 h, rfl⟩
  · exact ⟨.ldB _, formX_of_mask 0xF 0x33 h, rfl⟩
  · exact ⟨.ldMemVx _, formX_of_mask 0xF 0x55 h, rfl⟩
  · exact ⟨.ldVxMem _, formX_of_mask 0xF 0x65 h, rfl⟩

theorem Row.matchesWord_iff (r : Row) (w : Word) : r.matchesWord w = true ↔ w &&& r.mask = r.bits := beq_iff_eq

/-- Settles O3: a matching word is written from the row's pattern and its own fields, and decoding undoes encoding; the word
of an instruction matches the instruction's row. -/
theorem rowMatchesExactlyItsInstr : Obligations.RowMatchesExactlyItsInstr := by
  unfold Obligations.RowMatchesExactlyItsInstr
  intro w r inTable
  simp only [Row.matchesWord_iff, decode_eq_instr_iff]
  constructor
  case mp => exact exists_instr_of_row w r inTable
  case mpr =>
    rintro ⟨i, rfl, rfl⟩
    exact encode_and_mask i

/-- R53: a word of no row decodes to the unknown tag. -/
theorem decode_of_not_isInstrWord {w : Word} (h : isInstrWord w = false) : decode w = .unknown w := by
  cases hw : decode w with
  | unknown u => rw [eq_of_decode_unknown hw]
  | instr i =>
    have encoded : encode i = w := encode_of_decode hw
    have listed : isInstrWord w = true :=
      List.any_eq_true.2 ⟨rowOf i, rowOf_mem_opcodeRows i, (Row.matchesWord_iff _ w).2 (encoded ▸ encode_and_mask i)⟩
    exact absurd listed (by simp [h])

/-! The unknown words, class by class (R53). -/

theorem word_eq_of_class0 {w : Word} (h : opField w = 0x0) (nnn : Addr) : w = formA 0x0 nnn ↔ nnnField w = nnn := by
  constructor
  · intro e
    rw [e, nnnField_formA]
  · intro e
    rw [← e, formA_of_opField h]

/-- A test of the decoder that accepts an instruction leaves the unknown tag to its other outcome. -/
theorem Decoded.ite_eq_unknown_iff {c : Prop} [Decidable c] {i : Instr} {d : Decoded} {w : Word} :
    (if c then .instr i else d) = .unknown w ↔ ¬ c ∧ d = .unknown w := by
  split
  case isTrue h => simp [h]
  case isFalse h => simp [h]

theorem decodeClass0_eq_unknown_iff {w : Word} (h : opField w = 0x0) :
    decodeClass0 w = .unknown w ↔ nnnField w ≠ 0x0E0 ∧ nnnField w ≠ 0x0EE := by
  rw [Ne, Ne, ← word_eq_of_class0 h, ← word_eq_of_class0 h]
  simp only [decodeClass0, Decoded.ite_eq_unknown_iff, and_true]
  rfl

theorem decodeClass8_eq_unknown_iff (w : Word) (x y : Reg) (n : Nibble) :
    decodeClass8 w x y n = .unknown w ↔ 7 ≤ n.toNat := by
  simp only [decodeClass8, Decoded.ite_eq_unknown_iff, and_true]
  bv_omega

theorem decodeClassE_eq_unknown_iff (w : Word) (x : Reg) (kk : Byte) :
    decodeClassE w x kk = .unknown w ↔ kk ∉ [0x9E, 0xA1] := by
  simp only [decodeClassE, Decoded.ite_eq_unknown_iff, List.mem_cons, List.not_mem_nil, or_false, not_or, and_true]

theorem decodeClassF_eq_unknown_iff (w : Word) (x : Reg) (kk : Byte) :
    decodeClassF w x kk = .unknown w ↔ kk ∉ [0x07, 0x0A, 0x15, 0x18, 0x1E, 0x29, 0x33, 0x55, 0x65] := by
  simp only [decodeClassF, Decoded.ite_eq_unknown_iff, List.mem_cons, List.not_mem_nil, or_false, not_or, and_true]

/-- Settles O4: the classes 0, 5, 8, 9, E and F test a further field, and every other class is one instruction. -/
theorem unknownWordsByClass : Obligations.UnknownWordsByClass := by
  unfold Obligations.UnknownWordsByClass
  intro w
  rw [decode]
  generalize class_eq : opField w = op
  unfold decodeClass
  split
  case h_1 => simp [decodeClass0_eq_unknown_iff class_eq]
  case h_9 => simp [decodeClass8_eq_unknown_iff]
  case h_15 => simp [decodeClassE_eq_unknown_iff]
  case h_16 => simp [decodeClassF_eq_unknown_iff]
  case h_17 =>
    -- the sixteen classes are all the nibbles
    exfalso
    clear class_eq
    revert op
    decide
  all_goals simp

/-- Settles O5: closed evaluations of the decoder. -/
theorem specWordsDecode : Obligations.SpecWordsDecode := by
  unfold Obligations.SpecWordsDecode
  decide

end Sys2Proof
end

section
/-! PROOFS. 40_step_cycle.md R60 to R62: what a step is in terms of its fetch, and what it answers when there is no
instruction to run. -/

namespace Sys2Proof.Machine

open Sys2Proof

/-- A step with an instruction at `PC` is the instruction's meaning (R60). -/
theorem step_of_fetchInstr {s : State} {i : Instr} (h : fetchInstr s = .ok i) : step s = exec i s := by
  rw [step, h]

/-- A step with no instruction to run is the fault of the fetch (R61, R62). -/
theorem step_of_fetchInstr_error {s : State} {f : Fault} (h : fetchInstr s = .error f) : step s = .fault f := by
  rw [step, h]
  rfl

/-- Settles O6: within the bound the fetch and the decoder agree on the instruction, and the step runs it. -/
theorem stepRunsDecodedInstr : Obligations.StepRunsDecodedInstr := by
  unfold Obligations.StepRunsDecodedInstr
  exact fun s i inBound decoded => step_of_fetchInstr (fetchInstr_of_instr s i inBound decoded)

theorem fetchInstr_of_outside {s : State} (h : 4094 < s.pc.toNat) :
    fetchInstr s = .error (.addressOutOfRange s.pc (if s.pc.toNat = 4095 then 4096 else s.pc.toNat)) := by
  rw [fetchInstr, fetch_of_outside s h]

theorem fetchInstr_of_unknown {s : State} {u : Word} (inBound : s.pc.toNat ≤ 4094)
    (decoded : decode (s.wordAt s.pc.toNat) = .unknown u) : fetchInstr s = .error (.unknownOpcode s.pc u) := by
  simp only [fetchInstr, fetch_of_inside s inBound, decoded]

/-- Settles O8: the fetch itself is the fault, with its payload. -/
theorem fetchBeyond4094Faults : Obligations.FetchBeyond4094Faults := by
  unfold Obligations.FetchBeyond4094Faults
  exact fun s beyond => step_of_fetchInstr_error (fetchInstr_of_outside beyond)

/-- Settles O9: a word of no row decodes to the unknown tag, which the fetch turns into the fault. -/
theorem unknownWordFaults : Obligations.UnknownWordFaults := by
  unfold Obligations.UnknownWordFaults
  exact fun s inBound noRow => step_of_fetchInstr_error (fetchInstr_of_unknown inBound (decode_of_not_isInstrWord noRow))

end Sys2Proof.Machine
end

section
/-! PROOFS. 10_state.md section 12: the frame of each operation on the state, the instructions that branch on the stack or on
the keys, and the frame of every instruction. -/

namespace Sys2Proof.Machine

open Sys2Proof

/-! Frames compose, and one write of a piece keeps all the others. -/

theorem Frame.refl (s : State) : Frame s s [] [] :=
  ⟨fun _ _ => rfl, fun p _ => by cases p <;> simp [Kept], rfl⟩

theorem Kept.trans {s t u : State} {p : Piece} (first : Kept s t p) (second : Kept t u p) : Kept s u p := by
  cases p
  case stack => exact ⟨second.1.trans first.1, second.2.trans first.2⟩
  case memory => exact fun a => (second a).trans (first a)
  all_goals exact Eq.trans second first

theorem Frame.trans {s t u : State} {regs regs' : List Reg} {written written' : List Piece}
    (first : Frame s t regs written) (second : Frame t u regs' written') :
    Frame s u (regs ++ regs') (written ++ written') := by
  obtain ⟨regs₁, pieces₁, keys₁⟩ := first
  obtain ⟨regs₂, pieces₂, keys₂⟩ := second
  refine ⟨fun r other => ?_, fun p other => ?_, keys₂.trans keys₁⟩
  · rw [List.mem_append, not_or] at other
    exact (regs₂ r other.2).trans (regs₁ r other.1)
  · rw [List.mem_append, not_or] at other
    exact (pieces₁ p other.1).trans (pieces₂ p other.2)

theorem Frame.mono {s t : State} {regs regs' : List Reg} {written written' : List Piece} (h : Frame s t regs written)
    (moreRegs : regs ⊆ regs') (morePieces : written ⊆ written') : Frame s t regs' written' := by
  obtain ⟨otherRegs, otherPieces, keys⟩ := h
  exact ⟨fun r other => otherRegs r fun m => other (moreRegs m), fun p other => otherPieces p fun m => other (morePieces m),
    keys⟩

theorem frame_setDelay (s : State) (b : Byte) : Frame s (s.setDelay b) [] [.delay] :=
  ⟨fun _ _ => rfl, fun p other => by cases p <;> simp_all [Kept], rfl⟩

theorem frame_setSound (s : State) (b : Byte) : Frame s (s.setSound b) [] [.sound] :=
  ⟨fun _ _ => rfl, fun p other => by cases p <;> simp_all [Kept], rfl⟩

theorem frame_setMem (s : State) (m : Memory) : Frame s (s.setMem m) [] [.memory] :=
  ⟨fun _ _ => rfl, fun p other => by cases p <;> simp_all [Kept], rfl⟩

theorem frame_setDisp (s : State) (d : Display) : Frame s (s.setDisp d) [] [.display] :=
  ⟨fun _ _ => rfl, fun p other => by cases p <;> simp_all [Kept], rfl⟩

theorem frame_countDraw (s : State) : Frame s s.countDraw [] [.draws] :=
  ⟨fun _ _ => rfl, fun p other => by cases p <;> simp_all [Kept], rfl⟩

theorem frame_setStack (s : State) (entries : Vector Word 16) (depth : Fin 17) :
    Frame s { s with stack := entries, sp := depth } [] [.stack] :=
  ⟨fun _ _ => rfl, fun p other => by cases p <;> simp_all [Kept], rfl⟩

theorem mem_regsUpTo {x r : Reg} : r ∈ regsUpTo x ↔ r.toNat ≤ x.toNat := by
  simp only [regsUpTo, List.mem_map, List.mem_range, Nat.lt_succ_iff]
  constructor
  · rintro ⟨k, below, rfl⟩
    exact (Nat.mod_le k 16).trans below
  · exact fun below => ⟨r.toNat, below, by simp⟩

theorem frame_loadBlock (s : State) (base : Nat) (x : Reg) : Frame s (s.loadBlock base x) (regsUpTo x) [] := by
  refine ⟨fun r other => ?_, fun p _ => by cases p <;> simp [Kept], s.loadBlock_key base x⟩
  rw [mem_regsUpTo] at other
  rw [s.reg_loadBlock, if_neg other]

/-! `PC` is in no frame. -/

theorem Frame.jump {s t : State} {regs : List Reg} {written : List Piece} (h : Frame s t regs written) (target : Word) :
    Frame s (t.jump target) regs written := by
  obtain ⟨otherRegs, otherPieces, keys⟩ := h
  refine ⟨otherRegs, fun p hp => ?_, keys⟩
  have kept : Kept s t p := otherPieces p hp
  cases p <;> exact kept

theorem frame_skipIf (s : State) (c : Bool) : Frame s (s.skipIf c) [] [] := by
  cases c
  case false => exact (Frame.refl s).jump (s.pc + 2)
  case true => exact (Frame.refl s).jump (s.pc + 4)

theorem Frame.setFlag {s t : State} {regs : List Reg} {written : List Piece} (h : Frame s t regs written) (f : Bool) :
    Frame s (t.setFlag f) (regs ++ [vf]) written := by
  have both := h.trans (frame_setReg t vf (flagByte f))
  rwa [List.append_nil] at both

/-! The instructions that branch on the stack, the keys or the range at `I`. -/

/-- CALL completes exactly with room on the stack: it pushes `PC + 2` and jumps (41_control_flow.md R73). -/
theorem exec_call_eq_next_iff (nnn : Addr) (s t : State) :
    exec (.call nnn) s = .next t ↔ ∃ room : s.sp.val < 16,
      t = State.jump { s with stack := s.stack.set s.sp.val (s.pc + 2) room, sp := ⟨s.sp.val + 1, by omega⟩ }
        (zextAddr nnn) := by
  by_cases room : s.sp.val < 16
  · simp only [exec, execCall, s.push_of_room (s.pc + 2) room, Host.Outcome.next.injEq, room, exists_true_left, eq_comm]
  · simp only [exec, execCall, s.push_of_full (s.pc + 2) (by omega), raise, room, IsEmpty.exists_iff, reduceCtorEq]

/-- RET completes exactly with an entry in use: it goes to the newest one and leaves the entries (R70). -/
theorem exec_ret_eq_next_iff (s t : State) :
    exec .ret s = .next t ↔ ∃ used : 0 < s.sp.val,
      t = State.jump { s with sp := ⟨s.sp.val - 1, by omega⟩ } (s.stack[s.sp.val - 1]'(by omega)) := by
  by_cases used : 0 < s.sp.val
  · simp [exec, execRet, s.pop_of_used used, used, eq_comm]
  · simp [exec, execRet, s.pop_of_empty (by omega), used, raise]

/-- CALL faults exactly on a full stack (R73). -/
theorem exec_call_eq_fault_iff (nnn : Addr) (s : State) (f : Fault) :
    exec (.call nnn) s = .fault f ↔ s.sp.val = 16 ∧ f = .stackOverflow s.pc := by
  by_cases full : s.sp.val = 16
  · simp only [exec, execCall, s.push_of_full (s.pc + 2) full, raise, Host.Outcome.fault.injEq, full, true_and, eq_comm]
  · simp only [exec, execCall, s.push_of_room (s.pc + 2) (by omega), full, false_and, reduceCtorEq]

/-- RET faults exactly on an empty stack (R70). -/
theorem exec_ret_eq_fault_iff (s : State) (f : Fault) :
    exec .ret s = .fault f ↔ s.sp.val = 0 ∧ f = .stackUnderflow s.pc := by
  by_cases empty : s.sp.val = 0
  · simp only [exec, execRet, s.pop_of_empty empty, raise, Host.Outcome.fault.injEq, empty, true_and, eq_comm]
  · simp only [exec, execRet, s.pop_of_used (by omega), empty, false_and, reduceCtorEq]

/-- An access that completes in range: it completes exactly when the range check passes (20_memory.md R37). -/
theorem State.withRange_eq_next_iff (s t : State) (n : Nat) (f : Nat → State) :
    (s.withRange n fun base => .next (f base)) = .next t ↔ s.rangeFaults n = false ∧ t = f s.i.toNat := by
  cases range : s.rangeFaults n
  case false => simp [s.withRange_of_inside n _ range, eq_comm]
  case true => simp [s.withRange_of_outside n _ range]

/-- An access that completes in range: it faults exactly when the range check does not pass (R37). -/
theorem State.withRange_eq_fault_iff (s : State) (g : Fault) (n : Nat) (f : Nat → State) :
    (s.withRange n fun base => .next (f base)) = .fault g ↔ s.rangeFaults n = true ∧ g = s.rangeFault := by
  cases range : s.rangeFaults n
  case false => simp [s.withRange_of_inside n _ range]
  case true => simp [s.withRange_of_outside n _ range, eq_comm]

/-- An access whose range check passes stays within memory (R37). -/
theorem State.add_le_of_inRange (s : State) {n : Nat} (inRange : s.rangeFaults n = false) (positive : 1 ≤ n := by omega) :
    s.i.toNat + n ≤ 4096 := by
  have := (s.rangeFaults_iff n).not.1 (by simp [inRange])
  omega

/-- The state after DRW Vx, Vy, n has drawn the sprite at an address (45_display.md R112). -/
def State.drawAt (s : State) (x y : Reg) (n : Nibble) (base : Nat) : State :=
  let drawn := drawSprite (s.reg x).toNat (s.reg y).toNat (Memory.readBytes s.mem base n.toNat) s.disp
  ((s.setDisp drawn.1).setFlag drawn.2).advance

/-- The state after a run of bytes is stored at an address (43_index_memory.md R97, R98). -/
def State.storeAt (s : State) (bs : List Byte) (base : Nat) : State := (s.setMem (Memory.writeBytes s.mem base bs)).advance

/-! The four instructions that use memory at `I` are one access each. -/

theorem exec_drw (x y : Reg) (n : Nibble) (s : State) :
    exec (.drw x y n) s = s.withRange n.toNat fun base => .next (s.drawAt x y n base) := rfl

theorem exec_ldB (x : Reg) (s : State) :
    exec (.ldB x) s = s.withRange 3 fun base => .next (s.storeAt (bcdDigits (s.reg x)) base) := rfl

theorem exec_ldMemVx (x : Reg) (s : State) :
    exec (.ldMemVx x) s = s.withRange (x.toNat + 1) fun base => .next (s.storeAt (s.regBlock x) base) := rfl

theorem exec_ldVxMem (x : Reg) (s : State) :
    exec (.ldVxMem x) s = s.withRange (x.toNat + 1) fun base => .next (s.loadBlock base x).advance := rfl

theorem exec_drw_eq_next_iff (x y : Reg) (n : Nibble) (s t : State) :
    exec (.drw x y n) s = .next t ↔ s.rangeFaults n.toNat = false ∧ t = s.drawAt x y n s.i.toNat := by
  rw [exec_drw, State.withRange_eq_next_iff]

theorem exec_ldB_eq_next_iff (x : Reg) (s t : State) :
    exec (.ldB x) s = .next t ↔ s.rangeFaults 3 = false ∧ t = s.storeAt (bcdDigits (s.reg x)) s.i.toNat := by
  rw [exec_ldB, State.withRange_eq_next_iff]

theorem exec_ldMemVx_eq_next_iff (x : Reg) (s t : State) :
    exec (.ldMemVx x) s = .next t ↔ s.rangeFaults (x.toNat + 1) = false ∧ t = s.storeAt (s.regBlock x) s.i.toNat := by
  rw [exec_ldMemVx, State.withRange_eq_next_iff]

theorem exec_ldVxMem_eq_next_iff (x : Reg) (s t : State) :
    exec (.ldVxMem x) s = .next t ↔ s.rangeFaults (x.toNat + 1) = false ∧ t = (s.loadBlock s.i.toNat x).advance := by
  rw [exec_ldVxMem, State.withRange_eq_next_iff]

/-- LD Vx, K with no key pressed leaves the state (44_timer_random_key.md R108). -/
theorem exec_ldVxK_of_none {s : State} (x : Reg) (h : s.firstKey = none) : exec (.ldVxK x) s = .next s := by
  simp [exec, execLdVxK, h]

/-- LD Vx, K with a key pressed captures the first one (R108). -/
theorem exec_ldVxK_of_some {s : State} {k : Nat} (x : Reg) (h : s.firstKey = some k) :
    exec (.ldVxK x) s = .next (s.setReg x (BitVec.ofNat 8 k)).advance := by
  simp [exec, execLdVxK, h]

/-- An instruction changes no register outside `writtenRegs` and no piece of state outside `writtenPieces` (10_state.md R26). -/
theorem exec_frame {i : Instr} {s t : State} (h : exec i s = .next t) : Frame s t (writtenRegs i) (writtenPieces i) := by
  cases i
  case jp | jpV0 => cases h; exact (Frame.refl s).jump _
  case call nnn =>
    obtain ⟨room, rfl⟩ := (exec_call_eq_next_iff nnn s t).1 h
    exact (frame_setStack s _ _).jump _
  case ret =>
    obtain ⟨used, rfl⟩ := (exec_ret_eq_next_iff s t).1 h
    exact (frame_setStack s s.stack _).jump _
  case seImm | sneImm | seReg | sneReg | skp | sknp => cases h; exact frame_skipIf s _
  case ldImm | addImm | ldReg | orReg | andReg | xorReg | ldVxDT => cases h; exact (frame_setReg s _ _).advance
  case addReg | subReg | shr => cases h; exact ((frame_setReg s _ _).setFlag _).advance
  case rnd => cases h; exact ((frame_setReg s _ _).trans (frame_countDraw _)).advance
  case ldI | ldF => cases h; exact (frame_setI s _).advance
  case addI => cases h; exact ((frame_setI s _).setFlag _).advance
  case ldDTVx => cases h; exact (frame_setDelay s _).advance
  case ldSTVx => cases h; exact (frame_setSound s _).advance
  case cls => cases h; exact (frame_setDisp s _).advance
  case drw x y n =>
    obtain ⟨-, rfl⟩ := (exec_drw_eq_next_iff x y n s t).1 h
    exact ((frame_setDisp s _).setFlag _).advance
  case ldB x =>
    obtain ⟨-, rfl⟩ := (exec_ldB_eq_next_iff x s t).1 h
    exact (frame_setMem s _).advance
  case ldMemVx x =>
    obtain ⟨-, rfl⟩ := (exec_ldMemVx_eq_next_iff x s t).1 h
    exact (frame_setMem s _).advance
  case ldVxMem x =>
    obtain ⟨-, rfl⟩ := (exec_ldVxMem_eq_next_iff x s t).1 h
    exact (frame_loadBlock s _ x).advance
  case ldVxK x =>
    cases pressed : s.firstKey with
    | none =>
      cases (exec_ldVxK_of_none x pressed).symm.trans h
      exact (Frame.refl s).mono (List.nil_subset _) (List.nil_subset _)
    | some k =>
      cases (exec_ldVxK_of_some x pressed).symm.trans h
      exact (frame_setReg s _ _).advance

/-- A piece of state that an instruction does not write is kept (R26). -/
theorem exec_kept {i : Instr} {s t : State} {p : Piece} (h : exec i s = .next t) (other : p ∉ writtenPieces i) :
    Kept s t p := by
  obtain ⟨-, pieces, -⟩ := exec_frame h
  exact pieces p other

/-- Settles O16: the frame of each instruction, and RET writes `SP` and `PC` alone. -/
theorem execChangesOnlyListedState : Obligations.ExecChangesOnlyListedState := by
  unfold Obligations.ExecChangesOnlyListedState
  intro i s t h
  refine ⟨exec_frame h, fun isRet => ?_⟩
  subst isRet
  obtain ⟨used, rfl⟩ := (exec_ret_eq_next_iff s t).1 h
  rfl

end Sys2Proof.Machine
end

section
/-! PROOFS. 10_state.md R25: where an instruction can go, what it can do to memory, and that every step and every operation of
the host keeps the invariant. -/

namespace Sys2Proof.Machine

open Sys2Proof

/-- Where `PC` can stand after an instruction completes from `s` (40_step_cycle.md R64, R66; 41_control_flow.md R70 to R73). -/
inductive State.GoesTo (s : State) : Word → Prop
  | wait : s.GoesTo s.pc
  | advance : s.GoesTo (s.pc + 2)
  | skip : s.GoesTo (s.pc + 4)
  | jump (nnn : Addr) : s.GoesTo (zextAddr nnn)
  | jumpV0 (nnn : Addr) : s.GoesTo (zextAddr nnn + (s.reg 0).setWidth 16)
  | ret (k : Fin 16) (used : k.val < s.sp.val) : s.GoesTo s.stack[k]

theorem State.goesTo_skipIf (s : State) (c : Bool) : s.GoesTo (s.skipIf c).pc := by
  cases c
  case false => exact .advance
  case true => exact .skip

theorem exec_goesTo {i : Instr} {s t : State} (h : exec i s = .next t) : s.GoesTo t.pc := by
  cases i
  case jp nnn => cases h; exact .jump nnn
  case jpV0 nnn => cases h; exact .jumpV0 nnn
  case call nnn =>
    obtain ⟨room, rfl⟩ := (exec_call_eq_next_iff nnn s t).1 h
    exact .jump nnn
  case ret =>
    obtain ⟨used, rfl⟩ := (exec_ret_eq_next_iff s t).1 h
    exact .ret ⟨s.sp.val - 1, by omega⟩ (by simp only; omega)
  case seImm | sneImm | seReg | sneReg | skp | sknp => cases h; exact s.goesTo_skipIf _
  case drw x y n =>
    obtain ⟨-, rfl⟩ := (exec_drw_eq_next_iff x y n s t).1 h
    exact .advance
  case ldB x =>
    obtain ⟨-, rfl⟩ := (exec_ldB_eq_next_iff x s t).1 h
    exact .advance
  case ldMemVx x =>
    obtain ⟨-, rfl⟩ := (exec_ldMemVx_eq_next_iff x s t).1 h
    exact .advance
  case ldVxMem x =>
    obtain ⟨-, rfl⟩ := (exec_ldVxMem_eq_next_iff x s t).1 h
    rw [State.advance_pc, State.loadBlock_pc]
    exact .advance
  case ldVxK x =>
    cases pressed : s.firstKey with
    | none =>
      cases (exec_ldVxK_of_none x pressed).symm.trans h
      exact .wait
    | some k =>
      cases (exec_ldVxK_of_some x pressed).symm.trans h
      exact .advance
  all_goals
    cases h
    exact .advance

/-- R14: from a fetched instruction and a sound stack, `PC` goes no further than the farthest JP V0, 4095 + 255. -/
theorem State.GoesTo.toNat_le {s : State} {target : Word} (h : s.GoesTo target) (inBound : s.pc.toNat ≤ 4094)
    (stackOk : s.StackOk) : target.toNat ≤ 4350 := by
  cases h
  case wait => omega
  case advance => bv_omega
  case skip => bv_omega
  case jump nnn => rw [toNat_zextAddr]; omega
  case jumpV0 nnn =>
    have := (s.reg 0).isLt
    have := toNat_zextAddr nnn
    rw [BitVec.toNat_add, BitVec.toNat_setWidth]
    omega
  case ret k used => exact (stackOk k used).2.trans (by decide)

/-- What an instruction does to memory: nothing, or one run of bytes stored from `I` on, within memory (20_memory.md R37). -/
theorem exec_mem {i : Instr} {s t : State} (h : exec i s = .next t) :
    t.mem = s.mem ∨ ∃ bs, s.i.toNat + bs.length ≤ 4096 ∧ t.mem = Memory.writeBytes s.mem s.i.toNat bs := by
  cases i
  case ldB x =>
    obtain ⟨inRange, rfl⟩ := (exec_ldB_eq_next_iff x s t).1 h
    exact .inr ⟨bcdDigits (s.reg x), s.add_le_of_inRange (n := 3) inRange, rfl⟩
  case ldMemVx x =>
    obtain ⟨inRange, rfl⟩ := (exec_ldMemVx_eq_next_iff x s t).1 h
    exact .inr ⟨_, s.length_regBlock x ▸ s.add_le_of_inRange inRange, rfl⟩
  all_goals left
  case drw x y n =>
    obtain ⟨-, rfl⟩ := (exec_drw_eq_next_iff x y n s t).1 h
    rfl
  case ldVxMem x =>
    obtain ⟨-, rfl⟩ := (exec_ldVxMem_eq_next_iff x s t).1 h
    rw [State.advance_mem, State.loadBlock_mem]
  case call nnn =>
    obtain ⟨room, rfl⟩ := (exec_call_eq_next_iff nnn s t).1 h
    rfl
  case ret =>
    obtain ⟨used, rfl⟩ := (exec_ret_eq_next_iff s t).1 h
    rfl
  case ldVxK x =>
    cases pressed : s.firstKey with
    | none => cases (exec_ldVxK_of_none x pressed).symm.trans h; rfl
    | some k => cases (exec_ldVxK_of_some x pressed).symm.trans h; rfl
  all_goals
    cases h
    simp

theorem exec_keeps_wf {i : Instr} {s t : State} (h : exec i s = .next t) (wf : Memory.wf s.mem = true) :
    Memory.wf t.mem = true := by
  obtain same | ⟨bs, inRange, stored⟩ := exec_mem h
  · rwa [same]
  · rw [stored]
    exact Memory.wf_writeBytes bs s.mem s.i.toNat wf inRange

/-- Only CALL and RET write the stack (R26). -/
theorem stack_not_written {i : Instr} (notCall : ∀ nnn, i ≠ .call nnn) (notRet : i ≠ .ret) :
    .stack ∉ writtenPieces i := by
  cases i
  case call nnn => exact absurd rfl (notCall nnn)
  case ret => exact absurd rfl notRet
  all_goals simp [writtenPieces]

theorem exec_keeps_stackOk {i : Instr} {s t : State} (h : exec i s = .next t) (inBound : s.pc.toNat ≤ 4094)
    (stackOk : s.StackOk) : t.StackOk := by
  by_cases isCall : ∃ nnn, i = .call nnn
  · obtain ⟨nnn, rfl⟩ := isCall
    obtain ⟨room, rfl⟩ := (exec_call_eq_next_iff nnn s t).1 h
    intro k used
    simp only [State.jump_sp, State.jump_stack, Fin.getElem_fin, Vector.getElem_set] at used ⊢
    split
    case isTrue => bv_omega
    case isFalse other => exact stackOk k (by omega)
  · by_cases isRet : i = .ret
    · subst isRet
      obtain ⟨used, rfl⟩ := (exec_ret_eq_next_iff s t).1 h
      exact fun k below => stackOk k (below.trans_le (Nat.sub_le _ _))
    · obtain ⟨depth, entries⟩ := exec_kept h (stack_not_written (not_exists.1 isCall) isRet)
      rw [State.StackOk, depth, entries]
      exact stackOk

/-- A completed step keeps the invariant (R25). -/
theorem step_keeps_inv {s t : State} (inv : s.Inv) (h : step s = .next t) : t.Inv := by
  obtain ⟨i, fetched, executed⟩ := exec_of_step s t h
  obtain ⟨-, stackOk, wf⟩ := inv
  have inBound : s.pc.toNat ≤ 4094 := (bound_of_fetchInstr s i fetched).1
  exact ⟨(exec_goesTo executed).toNat_le inBound stackOk, exec_keeps_stackOk executed inBound stackOk,
    exec_keeps_wf executed wf⟩

/-- Settles O14: the fetch bounds the `PC` the instruction starts from, and the three clauses follow from where it goes, what it
pushes and what it stores. -/
theorem stepKeepsInv : Obligations.StepKeepsInv := by
  unfold Obligations.StepKeepsInv
  exact fun s t => step_keeps_inv

/-- Settles O13: `PC` is 0x200, no entry is in use and no cell is listed. -/
theorem resetMeetsInv : Obligations.ResetMeetsInv := by
  unfold Obligations.ResetMeetsInv
  decide

theorem stepState_keeps_inv {s : State} (inv : s.Inv) : (stepState s).Inv := by
  unfold stepState
  split
  next t answered => exact step_keeps_inv inv answered
  next => exact inv
  next => exact inv

theorem loadProgram_keeps_inv {image : List Byte} {s t : State} (inv : s.Inv) (h : loadProgram image s = some t) :
    t.Inv := by
  obtain ⟨pcOk, stackOk, wf⟩ := inv
  unfold loadProgram at h
  split at h
  case isTrue fits =>
    have short : image.length ≤ 3584 := of_decide_eq_true fits
    cases h
    exact ⟨pcOk, stackOk, Memory.wf_writeBytes image s.mem 0x200 wf (by omega)⟩
  case isFalse => cases h

theorem hostLoad_keeps_inv {image : List Byte} {h : Session} (inv : h.core.Inv) : (hostLoad image h).2.core.Inv := by
  unfold hostLoad
  split
  case isTrue =>
    split
    next t loaded => exact loadProgram_keeps_inv inv loaded
    next => exact inv
  case isFalse => exact inv

theorem hostOpOn_keeps_inv (op : HostOp) {h : Session} (inv : h.core.Inv) : (hostOpOn op h).2.core.Inv := by
  cases op with
  | reset => exact resetMeetsInv
  | loadProgram image => exact hostLoad_keeps_inv inv
  | setKeys k => exact inv
  | step => exact stepState_keeps_inv inv
  | tickTimers => exact inv
  | readDisplay => exact inv

theorem hostOp_keeps_inv (op : HostOp) {h : Session} (inv : h.core.Inv) : (hostOp op h).2.core.Inv := by
  unfold hostOp
  split
  case isTrue => exact inv
  case isFalse => exact hostOpOn_keeps_inv op inv

/-- Settles O15, by induction on the schedule. -/
theorem everyScheduleKeepsInv : Obligations.EveryScheduleKeepsInv := by
  unfold Obligations.EveryScheduleKeepsInv
  intro ops
  induction ops with
  | nil => exact fun h inv => inv
  | cons op ops ih => exact fun h inv => ih (hostOp op h).2 (hostOp_keeps_inv op inv)

end Sys2Proof.Machine
end

section
/-! PROOFS. 10_state.md R16 and R17: what a step cannot see. The sound timer and the stack entries are only written, but for the
entry RET pops; so a step from a state in which they are overwritten is the same step, overwritten. -/

namespace Sys2Proof.Machine

open Sys2Proof

/-- The state with another sound timer and other stack entries. -/
def State.overwrite (b : Byte) (e : Vector Word 16) (s : State) : State := { s with st := b, stack := e }

/-- The outcome with its next state, if it has one, changed by `f`. -/
def mapNext (f : State → State) : Result → Result
  | .next t => .next (f t)
  | .fault g => .fault g
  | .refused r => .refused r

theorem State.skipIf_overwrite (b : Byte) (e : Vector Word 16) (s : State) (c : Bool) :
    (s.overwrite b e).skipIf c = (s.skipIf c).overwrite b e := by cases c <;> rfl

/-- An access overwrites with its continuation: the range check reads `I` alone. -/
theorem State.withRange_overwrite (b : Byte) (e : Vector Word 16) (s : State) (n : Nat) (f : State → Nat → State)
    (commutes : ∀ base, f (s.overwrite b e) base = (f s base).overwrite b e) :
    ((s.overwrite b e).withRange n fun base => .next (f (s.overwrite b e) base)) =
      mapNext (State.overwrite b e) (s.withRange n fun base => .next (f s base)) := by
  have check : (s.overwrite b e).rangeFaults n = s.rangeFaults n := rfl
  cases range : s.rangeFaults n
  case true =>
    rw [State.withRange_of_outside _ _ _ (check.trans range), State.withRange_of_outside _ _ _ range]
    rfl
  case false =>
    rw [State.withRange_of_inside _ _ _ (check.trans range), State.withRange_of_inside _ _ _ range, commutes]
    rfl

/-- An instruction that neither writes the sound timer nor moves the stack commutes with overwriting both. -/
theorem exec_overwrite {i : Instr} (b : Byte) (e : Vector Word 16) (s : State) (notSound : ∀ x, i ≠ .ldSTVx x)
    (notCall : ∀ nnn, i ≠ .call nnn) (notRet : i ≠ .ret) :
    exec i (s.overwrite b e) = mapNext (State.overwrite b e) (exec i s) := by
  cases i
  case ldSTVx x => exact absurd rfl (notSound x)
  case call nnn => exact absurd rfl (notCall nnn)
  case ret => exact absurd rfl notRet
  case seImm | sneImm | seReg | sneReg | skp | sknp => exact congrArg Host.Outcome.next (s.skipIf_overwrite b e _)
  case drw x y n => exact s.withRange_overwrite b e n.toNat (fun u base => u.drawAt x y n base) fun _ => rfl
  case ldB x => exact s.withRange_overwrite b e 3 (fun u base => u.storeAt (bcdDigits (u.reg x)) base) fun _ => rfl
  case ldMemVx x =>
    exact s.withRange_overwrite b e (x.toNat + 1) (fun u base => u.storeAt (u.regBlock x) base) fun _ => rfl
  case ldVxMem x =>
    exact s.withRange_overwrite b e (x.toNat + 1) (fun u base => (u.loadBlock base x).advance) fun _ => rfl
  case ldVxK x =>
    have sameKeys : (s.overwrite b e).firstKey = s.firstKey := rfl
    cases pressed : s.firstKey with
    | none =>
      rw [exec_ldVxK_of_none x pressed, exec_ldVxK_of_none x (sameKeys.trans pressed)]
      rfl
    | some k =>
      rw [exec_ldVxK_of_some x pressed, exec_ldVxK_of_some x (sameKeys.trans pressed)]
      rfl
  all_goals rfl

/-- Other stack entries that agree with the state's below `SP`: they differ in dead storage alone (10_state.md R17). -/
def State.DeadOnly (s : State) (e : Vector Word 16) : Prop := ∀ k : Fin 16, k.val < s.sp.val → e[k] = s.stack[k]

/-- A pushed entry is the same in both, and the entries below it were. -/
theorem State.DeadOnly.push {s : State} {e : Vector Word 16} (dead : s.DeadOnly e) (value : Word)
    (room : s.sp.val < 16) : State.DeadOnly
      { s with stack := s.stack.set s.sp.val value room, sp := ⟨s.sp.val + 1, by omega⟩ } (e.set s.sp.val value room) := by
  intro k used
  simp only [Fin.getElem_fin, Vector.getElem_set]
  split
  case isTrue => rfl
  case isFalse other => exact dead k (by simp only at used; omega)

/-- Only LD ST, Vx writes the sound timer (10_state.md R26). -/
theorem sound_not_written {i : Instr} (notSound : ∀ x, i ≠ .ldSTVx x) : .sound ∉ writtenPieces i := by
  cases i
  case ldSTVx x => exact absurd rfl (notSound x)
  all_goals simp [writtenPieces]

/-- An instruction that completes completes alike from a state with another sound timer and other dead entries; the results
differ in the same way, and in the timer or in the entries only if the states did. -/
theorem exec_next_overwrite {i : Instr} {s t : State} {e : Vector Word 16} (b : Byte) (dead : s.DeadOnly e)
    (h : exec i s = .next t) :
    ∃ c e', exec i (s.overwrite b e) = .next (t.overwrite c e') ∧ t.DeadOnly e' ∧ (b = s.st → c = t.st) ∧
      (e = s.stack → e' = t.stack) := by
  by_cases isCall : ∃ nnn, i = .call nnn
  · obtain ⟨nnn, rfl⟩ := isCall
    obtain ⟨room, rfl⟩ := (exec_call_eq_next_iff nnn s t).1 h
    exact ⟨b, e.set s.sp.val (s.pc + 2) room, (exec_call_eq_next_iff nnn (s.overwrite b e) _).2 ⟨room, rfl⟩,
      dead.push (s.pc + 2) room, id, fun same => by subst same; rfl⟩
  by_cases isRet : i = .ret
  · subst isRet
    obtain ⟨used, rfl⟩ := (exec_ret_eq_next_iff s t).1 h
    have newest : e[s.sp.val - 1]'(by omega) = s.stack[s.sp.val - 1]'(by omega) :=
      dead ⟨s.sp.val - 1, by omega⟩ (by simp only; omega)
    refine ⟨b, e, (exec_ret_eq_next_iff (s.overwrite b e) _).2 ⟨used, ?_⟩, ?_, id, id⟩
    · exact congrArg (State.jump { s.overwrite b e with sp := ⟨s.sp.val - 1, by omega⟩ }) newest.symm
    · exact fun k below => dead k (below.trans_le (Nat.sub_le _ _))
  by_cases isSound : ∃ x, i = .ldSTVx x
  · obtain ⟨x, rfl⟩ := isSound
    cases h
    exact ⟨s.reg x, e, rfl, dead, fun _ => rfl, id⟩
  have notCall := not_exists.1 isCall
  have notSound := not_exists.1 isSound
  obtain ⟨depth, entries⟩ := exec_kept h (stack_not_written notCall isRet)
  have timer : t.st = s.st := exec_kept h (sound_not_written notSound)
  refine ⟨b, e, ?_, ?_, fun same => same.trans timer.symm, fun same => same.trans entries.symm⟩
  · rw [exec_overwrite b e s notSound notCall isRet, h]
    rfl
  · rw [State.DeadOnly, depth, entries]
    exact dead

/-- An instruction that faults faults alike: no check reads the sound timer or an entry. -/
theorem exec_fault_overwrite {i : Instr} {s : State} {f : Fault} (b : Byte) (e : Vector Word 16)
    (h : exec i s = .fault f) : exec i (s.overwrite b e) = .fault f := by
  by_cases isCall : ∃ nnn, i = .call nnn
  · obtain ⟨nnn, rfl⟩ := isCall
    exact (exec_call_eq_fault_iff nnn (s.overwrite b e) f).2 ((exec_call_eq_fault_iff nnn s f).1 h)
  by_cases isRet : i = .ret
  · subst isRet
    exact (exec_ret_eq_fault_iff (s.overwrite b e) f).2 ((exec_ret_eq_fault_iff s f).1 h)
  by_cases isSound : ∃ x, i = .ldSTVx x
  · obtain ⟨x, rfl⟩ := isSound
    cases h
  rw [exec_overwrite b e s (not_exists.1 isSound) (not_exists.1 isCall) isRet, h]
  rfl

/-- The fetch reads `PC` and memory alone, so the step is the same instruction or the same fault. -/
theorem step_overwrite (b : Byte) (e : Vector Word 16) (s : State) :
    (∃ f, step s = .fault f ∧ step (s.overwrite b e) = .fault f) ∨
    ∃ i, step s = exec i s ∧ step (s.overwrite b e) = exec i (s.overwrite b e) := by
  have sameFetch : fetchInstr (s.overwrite b e) = fetchInstr s := rfl
  cases fetched : fetchInstr s with
  | error f =>
    exact .inl ⟨f, step_of_fetchInstr_error fetched, step_of_fetchInstr_error (sameFetch.trans fetched)⟩
  | ok i => exact .inr ⟨i, step_of_fetchInstr fetched, step_of_fetchInstr (sameFetch.trans fetched)⟩

theorem step_next_overwrite {s t : State} {e : Vector Word 16} (b : Byte) (dead : s.DeadOnly e) (h : step s = .next t) :
    ∃ c e', step (s.overwrite b e) = .next (t.overwrite c e') ∧ t.DeadOnly e' ∧ (b = s.st → c = t.st) ∧
      (e = s.stack → e' = t.stack) := by
  obtain ⟨f, faulted, -⟩ | ⟨i, ran, alike⟩ := step_overwrite b e s
  · cases faulted.symm.trans h
  · rw [alike]
    exact exec_next_overwrite b dead (ran.symm.trans h)

theorem step_fault_overwrite {s : State} {f : Fault} (b : Byte) (e : Vector Word 16) (h : step s = .fault f) :
    step (s.overwrite b e) = .fault f := by
  obtain ⟨g, faulted, alike⟩ | ⟨i, ran, alike⟩ := step_overwrite b e s
  · rw [alike, ← faulted, h]
  · rw [alike]
    exact exec_fault_overwrite b e (ran.symm.trans h)

/-- Settles O59: overwriting the sound timer alone, with the entries as they are. -/
theorem stepIgnoresSoundTimer : Obligations.StepIgnoresSoundTimer := by
  unfold Obligations.StepIgnoresSoundTimer
  refine fun s b => ⟨fun t h => ?_, fun f h => step_fault_overwrite b s.stack h⟩
  obtain ⟨c, e', alike, -, -, sameEntries⟩ := step_next_overwrite (e := s.stack) b (fun _ _ => rfl) h
  cases sameEntries rfl
  exact ⟨c, alike⟩

/-- Settles O60: overwriting dead entries alone, with the sound timer as it is. -/
theorem stepIgnoresDeadStack : Obligations.StepIgnoresDeadStack := by
  unfold Obligations.StepIgnoresDeadStack
  refine fun s e dead => ⟨fun t h => ?_, fun f h => step_fault_overwrite s.st e h⟩
  obtain ⟨c, e', alike, stillDead, sameTimer, -⟩ := step_next_overwrite s.st dead h
  cases sameTimer rfl
  exact ⟨e', alike, stillDead⟩

end Sys2Proof.Machine
end

section
/-! PROOFS. 60_exceptions.md section 1: which instruction faults, exactly when, and that every instruction has a meaning. -/

namespace Sys2Proof.Machine

open Sys2Proof

/-- LD Vx, K always completes, by waiting or by capturing a key (44_timer_random_key.md R108). -/
theorem exists_exec_ldVxK (x : Reg) (s : State) : ∃ t, exec (.ldVxK x) s = .next t := by
  cases pressed : s.firstKey with
  | none => exact ⟨s, exec_ldVxK_of_none x pressed⟩
  | some k => exact ⟨_, exec_ldVxK_of_some x pressed⟩

/-- The range check for `I` to `I + k` (R37). -/
theorem State.rangeFaults_succ_iff (s : State) (k : Nat) : s.rangeFaults (k + 1) = true ↔ 4095 < s.i.toNat + k := by
  rw [s.rangeFaults_iff]
  omega

/-- Settles O10, instruction by instruction: CALL and RET by the depth, the four memory instructions by the range, and the
others complete. -/
theorem execFaultsExactlyWhen : Obligations.ExecFaultsExactlyWhen := by
  unfold Obligations.ExecFaultsExactlyWhen
  intro i s f
  cases i
  case call nnn => simp [exec_call_eq_fault_iff]
  case ret => simp [exec_ret_eq_fault_iff]
  case drw x y n =>
    have range : s.rangeFaults n.toNat = true ↔ 1 ≤ n.toNat ∧ 4095 < s.i.toNat + n.toNat - 1 := by
      rw [s.rangeFaults_iff]
      omega
    rw [exec_drw, s.withRange_eq_fault_iff, range, and_comm]
    simp [State.rangeFault]
  case ldB x =>
    rw [exec_ldB, s.withRange_eq_fault_iff, s.rangeFaults_succ_iff, and_comm]
    simp [State.rangeFault]
  case ldMemVx x =>
    rw [exec_ldMemVx, s.withRange_eq_fault_iff, s.rangeFaults_succ_iff, and_comm]
    simp [State.rangeFault]
  case ldVxMem x =>
    rw [exec_ldVxMem, s.withRange_eq_fault_iff, s.rangeFaults_succ_iff, and_comm]
    simp [State.rangeFault]
  case ldVxK x =>
    obtain ⟨t, completes⟩ := exists_exec_ldVxK x s
    simp [completes]
  all_goals exact iff_of_false (fun faults => nomatch faults) (by
    simp only [reduceCtorEq, false_and, exists_false, and_false, or_self, not_false_eq_true])

/-- An access that completes in range completes or faults (20_memory.md R37). -/
theorem State.withRange_next_or_fault (s : State) (n : Nat) (f : Nat → State) :
    (∃ t, (s.withRange n fun base => .next (f base)) = .next t) ∨
    ∃ g, (s.withRange n fun base => .next (f base)) = .fault g := by
  cases range : s.rangeFaults n
  case false => exact .inl ⟨_, s.withRange_of_inside n _ range⟩
  case true => exact .inr ⟨_, s.withRange_of_outside n _ range⟩

/-- Every instruction completes or faults (40_step_cycle.md R63). -/
theorem exec_next_or_fault (i : Instr) (s : State) : (∃ t, exec i s = .next t) ∨ ∃ f, exec i s = .fault f := by
  cases i
  case call nnn =>
    by_cases room : s.sp.val < 16
    · exact .inl ⟨_, (exec_call_eq_next_iff nnn s _).2 ⟨room, rfl⟩⟩
    · exact .inr ⟨_, (exec_call_eq_fault_iff nnn s _).2 ⟨by omega, rfl⟩⟩
  case ret =>
    by_cases used : 0 < s.sp.val
    · exact .inl ⟨_, (exec_ret_eq_next_iff s _).2 ⟨used, rfl⟩⟩
    · exact .inr ⟨_, (exec_ret_eq_fault_iff s _).2 ⟨by omega, rfl⟩⟩
  case drw x y n => exact s.withRange_next_or_fault n.toNat (s.drawAt x y n)
  case ldB x => exact s.withRange_next_or_fault 3 (s.storeAt (bcdDigits (s.reg x)))
  case ldMemVx x => exact s.withRange_next_or_fault (x.toNat + 1) (s.storeAt (s.regBlock x))
  case ldVxMem x => exact s.withRange_next_or_fault (x.toNat + 1) fun base => (s.loadBlock base x).advance
  case ldVxK x => exact .inl (exists_exec_ldVxK x s)
  all_goals exact .inl ⟨_, rfl⟩

theorem exec_ne_refused (i : Instr) (s : State) (r : Refusal) : exec i s ≠ .refused r := by
  obtain ⟨t, h⟩ | ⟨f, h⟩ := exec_next_or_fault i s <;> simp [h]

/-- Settles O11: a step is a fault of the fetch or one instruction, which completes or faults. -/
theorem nothingIsRefused : Obligations.NothingIsRefused := by
  unfold Obligations.NothingIsRefused
  refine fun s r => ⟨?_, fun i => exec_ne_refused i s r⟩
  cases fetched : fetchInstr s with
  | error f => simp [step_of_fetchInstr_error fetched]
  | ok i =>
    rw [step_of_fetchInstr fetched]
    exact exec_ne_refused i s r

end Sys2Proof.Machine
end

section
/-! PROOFS. 10_state.md sections 1 and 12: what the pieces of state that few instructions write can become in a step. -/

namespace Sys2Proof.Machine

open Sys2Proof

@[simp] theorem State.reg_setFlag_vf (s : State) (f : Bool) : (s.setFlag f).reg vf = flagByte f :=
  s.reg_setReg_self vf (flagByte f)

theorem flagByte_eq_one_iff (f : Bool) : flagByte f = 1 ↔ f = true := by cases f <;> decide

theorem flagByte_zero_or_one (f : Bool) : flagByte f = 0 ∨ flagByte f = 1 := by cases f <;> decide

/-- Settles O17: each of the five writes its flag last. -/
theorem flagIsZeroOrOne : Obligations.FlagIsZeroOrOne := by
  unfold Obligations.FlagIsZeroOrOne
  rintro i s t ⟨x, y, n, isWriter⟩ h
  have flagLast : ∃ u f, t = (State.setFlag u f).advance := by
    rcases isWriter with rfl | rfl | rfl | rfl | rfl
    case inr.inr.inr.inr => exact ⟨_, _, ((exec_drw_eq_next_iff x y n s t).1 h).2⟩
    all_goals
      cases h
      exact ⟨_, _, rfl⟩
  obtain ⟨u, f, rfl⟩ := flagLast
  rw [State.reg_advance, State.reg_setFlag_vf]
  exact flagByte_zero_or_one f

/-- Only LD DT, Vx writes the delay timer (10_state.md R26). -/
theorem delay_not_written {i : Instr} (notDelay : ∀ x, i ≠ .ldDTVx x) : .delay ∉ writtenPieces i := by
  cases i
  case ldDTVx x => exact absurd rfl (notDelay x)
  all_goals simp [writtenPieces]

/-- Settles O18: LD DT, Vx and LD ST, Vx move their register, and no other instruction writes a timer. -/
theorem stepNeverTicks : Obligations.StepNeverTicks := by
  unfold Obligations.StepNeverTicks
  intro s t h
  obtain ⟨i, fetched, executed⟩ := exec_of_step s t h
  constructor
  · by_cases isDelay : ∃ x, i = .ldDTVx x
    · obtain ⟨x, rfl⟩ := isDelay
      cases executed
      exact .inr ⟨x, fetched, rfl⟩
    · exact .inl (exec_kept executed (delay_not_written (not_exists.1 isDelay)))
  · by_cases isSound : ∃ x, i = .ldSTVx x
    · obtain ⟨x, rfl⟩ := isSound
      cases executed
      exact .inr ⟨x, fetched, rfl⟩
    · exact .inl (exec_kept executed (sound_not_written (not_exists.1 isSound)))

/-- Settles O19: a push, a pop, and no other write of the stack. -/
theorem stackDepthFollowsCallsAndReturns : Obligations.StackDepthFollowsCallsAndReturns := by
  unfold Obligations.StackDepthFollowsCallsAndReturns
  refine fun i s t h => ⟨?call, ?ret, fun notCall notRet => ?others⟩
  case call =>
    rintro ⟨nnn, rfl⟩
    obtain ⟨room, rfl⟩ := (exec_call_eq_next_iff nnn s t).1 h
    rfl
  case ret =>
    rintro rfl
    obtain ⟨used, rfl⟩ := (exec_ret_eq_next_iff s t).1 h
    exact Nat.sub_add_cancel used
  case others => exact (exec_kept h (stack_not_written notCall notRet)).1

end Sys2Proof.Machine
end

section
/-! PROOFS. 41_control_flow.md and 44_timer_random_key.md section 3: jumps, calls, returns and skips. The frame of each is
`exec_frame`. -/

namespace Sys2Proof.Machine

open Sys2Proof

/-- Settles O20: a jump writes the address, which keeps its value in 16 bits. -/
theorem jumpGoesToAddress : Obligations.JumpGoesToAddress := by
  unfold Obligations.JumpGoesToAddress
  exact fun nnn s => ⟨s.jump (zextAddr nnn), rfl, toNat_zextAddr nnn, exec_frame (i := .jp nnn) rfl⟩

/-- Settles O21: 4095 + 255 fits in 16 bits, so the sum is the unbounded one. -/
theorem jumpV0AddsRegister0 : Obligations.JumpV0AddsRegister0 := by
  unfold Obligations.JumpV0AddsRegister0
  refine fun nnn s => ⟨s.jump (zextAddr nnn + (s.reg 0).setWidth 16), rfl, ?_, exec_frame (i := .jpV0 nnn) rfl⟩
  have := (s.reg 0).isLt
  have := nnn.isLt
  rw [State.jump_pc, BitVec.toNat_add, BitVec.toNat_setWidth, toNat_zextAddr]
  omega

/-- Settles O22: the push and the jump. -/
theorem callPushesAndJumps : Obligations.CallPushesAndJumps := by
  unfold Obligations.CallPushesAndJumps
  intro nnn s room
  have completes := (exec_call_eq_next_iff nnn s _).2 ⟨room, rfl⟩
  refine ⟨_, completes, toNat_zextAddr nnn, rfl, fun k => ?_, exec_frame completes⟩
  simp only [State.jump_stack, Fin.getElem_fin, Vector.getElem_set, eq_comm]

/-- Settles O23: the newest entry is the one at the new `SP`. -/
theorem retPopsIntoPc : Obligations.RetPopsIntoPc := by
  unfold Obligations.RetPopsIntoPc
  intro s used
  have completes := (exec_ret_eq_next_iff s _).2 ⟨used, rfl⟩
  refine ⟨_, completes, Nat.sub_add_cancel used, rfl, fun k newest => ?_, exec_frame completes⟩
  simp only [State.jump_pc, ← newest, Nat.add_sub_cancel, Fin.getElem_fin]

/-- Settles O24, from O22 and O23: the entry RET pops is the one CALL pushed, and CALL wrote no other. -/
theorem callThenRetComesBack : Obligations.CallThenRetComesBack := by
  unfold Obligations.CallThenRetComesBack
  intro nnn s room
  obtain ⟨t, called, -, deeper, entries, callFrame⟩ := callPushesAndJumps nnn s room
  obtain ⟨u, returned, back, same, newest, retFrame⟩ := retPopsIntoPc t (by omega)
  refine ⟨t, u, called, returned, ?pc, ?depth, ?frame, fun k used => ?live⟩
  case pc => rw [newest ⟨s.sp.val, room⟩ deeper.symm, entries, if_pos rfl]
  case depth => exact Fin.ext (by omega)
  case frame => exact (callFrame.trans retFrame).mono (List.Subset.refl _) (by simp)
  case live => rw [same, entries, if_neg used.ne]

/-! The skips: `PC` by the condition. -/

/-- Settles O25. -/
theorem skipsOnImmediate : Obligations.SkipsOnImmediate := by
  unfold Obligations.SkipsOnImmediate
  refine fun x kk s => ⟨⟨_, rfl, ?_, exec_frame (i := .seImm x kk) rfl⟩, ⟨_, rfl, ?_, exec_frame (i := .sneImm x kk) rfl⟩⟩
  · simp only [State.skipIf_pc, beq_iff_eq]
  · simp only [State.skipIf_pc, bne_iff_ne, ne_eq, ite_not]

/-- Settles O26. -/
theorem skipsOnRegisters : Obligations.SkipsOnRegisters := by
  unfold Obligations.SkipsOnRegisters
  refine fun x y s => ⟨⟨_, rfl, ?_, exec_frame (i := .seReg x y) rfl⟩, ⟨_, rfl, ?_, exec_frame (i := .sneReg x y) rfl⟩⟩
  · simp only [State.skipIf_pc, beq_iff_eq]
  · simp only [State.skipIf_pc, bne_iff_ne, ne_eq, ite_not]

/-- The key a register selects is its value modulo 16 (R109, D19). -/
theorem State.keyDown_keyIndex {s : State} {b : Byte} {k : Fin 16} (h : k.val = b.toNat % 16) :
    s.keyDown (keyIndex b) = s.key[k] := by
  have index : (keyIndex b).toNat = k.val := by rw [h, keyIndex, BitVec.extractLsb'_toNat, Nat.shiftRight_zero]
  simp only [State.keyDown, index, Fin.getElem_fin]

/-- Settles O27. -/
theorem skipsOnKey : Obligations.SkipsOnKey := by
  unfold Obligations.SkipsOnKey
  refine fun x s k selected => ⟨⟨_, rfl, ?_, exec_frame (i := .skp x) rfl⟩, ⟨_, rfl, ?_, exec_frame (i := .sknp x) rfl⟩⟩
  · rw [State.skipIf_pc, State.keyDown_keyIndex selected]
  · rw [State.skipIf_pc, State.keyDown_keyIndex selected]
    cases s.key[k] <;> rfl

end Sys2Proof.Machine
end

section
/-! PROOFS. 42_alu.md, 43_index_memory.md section 1 and 44_timer_random_key.md sections 1 and 2: the instructions that write
registers, `I` or a timer. The frame of each is `exec_frame`, so what is left is the value. -/

namespace Sys2Proof.Machine

open Sys2Proof

/-- Settles O29. -/
theorem addImmediate : Obligations.AddImmediate := by
  unfold Obligations.AddImmediate
  refine fun x kk s => ⟨_, rfl, ?_, rfl, exec_frame (i := .addImm x kk) rfl⟩
  rw [State.reg_advance, State.reg_setReg_self, BitVec.toNat_add]

/-- Settles O30. -/
theorem copyRegister : Obligations.CopyRegister := by
  unfold Obligations.CopyRegister
  exact fun x y s => ⟨_, rfl, s.reg_setReg_self x (s.reg y), rfl, exec_frame (i := .ldReg x y) rfl⟩

/-- Settles O31. -/
theorem bitwiseCombine : Obligations.BitwiseCombine := by
  unfold Obligations.BitwiseCombine
  refine fun x y s => ⟨⟨_, rfl, fun k => ?_, rfl, exec_frame (i := .orReg x y) rfl⟩,
    ⟨_, rfl, fun k => ?_, rfl, exec_frame (i := .andReg x y) rfl⟩,
    ⟨_, rfl, fun k => ?_, rfl, exec_frame (i := .xorReg x y) rfl⟩⟩
  · rw [State.reg_advance, State.reg_setReg_self, BitVec.getLsbD_or]
  · rw [State.reg_advance, State.reg_setReg_self, BitVec.getLsbD_and]
  · rw [State.reg_advance, State.reg_setReg_self, BitVec.getLsbD_xor]

/-- A result written before the flag is what remains in a register other than `VF` (42_alu.md R81, D14). -/
theorem State.reg_setReg_setFlag (s : State) {x : Reg} (b : Byte) (f : Bool) (other : x ≠ vf) :
    ((s.setReg x b).setFlag f).advance.reg x = b := by
  rw [State.reg_advance, State.reg_setFlag, if_neg other, State.reg_setReg_self]

/-- The flag as a number, whatever was written before it (R81). -/
theorem State.toNat_reg_vf_setFlag (s : State) (f : Bool) :
    ((s.setFlag f).advance.reg vf).toNat = if f then 1 else 0 := by
  rw [State.reg_advance, State.reg_setFlag_vf, flagByte_toNat]

/-- Settles O32. -/
theorem addRegisters : Obligations.AddRegisters := by
  unfold Obligations.AddRegisters
  refine fun x y s => ⟨_, rfl, fun other => ?result, ?flag, rfl, exec_frame (i := .addReg x y) rfl⟩
  case result => rw [State.reg_setReg_setFlag _ _ _ other, BitVec.toNat_add]
  case flag => simp only [State.toNat_reg_vf_setFlag, carryOut, decide_eq_true_eq, gt_iff_lt]

/-- Settles O33. -/
theorem subtractRegisters : Obligations.SubtractRegisters := by
  unfold Obligations.SubtractRegisters
  refine fun x y s => ⟨_, rfl, fun other => ?result, ?flag, rfl, exec_frame (i := .subReg x y) rfl⟩
  case result =>
    have := (s.reg y).isLt
    rw [State.reg_setReg_setFlag _ _ _ other, BitVec.toNat_sub]
    omega
  case flag => simp only [State.toNat_reg_vf_setFlag, greater, decide_eq_true_eq, gt_iff_lt]

/-- Settles O34: the meaning does not name `y`. -/
theorem shiftRight : Obligations.ShiftRight := by
  unfold Obligations.ShiftRight
  refine fun x y s => ⟨⟨_, rfl, fun other => ?result, ?flag, rfl, exec_frame (i := .shr x y) rfl⟩, fun z => rfl⟩
  case result =>
    rw [State.reg_setReg_setFlag _ _ _ other, BitVec.toNat_ushiftRight, Nat.shiftRight_eq_div_pow, Nat.pow_one]
  case flag =>
    rw [State.toNat_reg_vf_setFlag, droppedBit, ← BitVec.testBit_toNat, Nat.testBit_zero]
    rcases Nat.mod_two_eq_zero_or_one (s.reg x).toNat with even | odd
    · simp [even]
    · simp [odd]

/-- Settles O36. -/
theorem addToIndex : Obligations.AddToIndex := by
  unfold Obligations.AddToIndex
  refine fun x s => ⟨_, rfl, ?result, ?flag, rfl, exec_frame (i := .addI x) rfl⟩
  case result =>
    simp only [State.advance_i, State.setFlag_i, State.setI_i, BitVec.toNat_add, BitVec.toNat_setWidth]
    omega
  case flag => simp only [State.toNat_reg_vf_setFlag, beyondMemory, decide_eq_true_eq, gt_iff_lt]

/-- Settles O37: five times a byte fits in 16 bits. -/
theorem fontAddress : Obligations.FontAddress := by
  unfold Obligations.FontAddress
  refine fun x s => ⟨_, rfl, ?_, rfl, exec_frame (i := .ldF x) rfl⟩
  have := (s.reg x).isLt
  simp only [State.advance_i, State.setI_i, BitVec.toNat_mul, BitVec.toNat_setWidth, BitVec.reduceToNat]
  omega

/-- Settles O43. -/
theorem timerMoves : Obligations.TimerMoves := by
  unfold Obligations.TimerMoves
  exact fun x s => ⟨⟨_, rfl, s.reg_setReg_self x s.dt, rfl, exec_frame (i := .ldVxDT x) rfl⟩,
    ⟨_, rfl, rfl, rfl, exec_frame (i := .ldDTVx x) rfl⟩, ⟨_, rfl, rfl, rfl, exec_frame (i := .ldSTVx x) rfl⟩⟩

/-- Settles O44: a bit of a conjunction with the mask is 0 where the mask is. -/
theorem randomIsMasked : Obligations.RandomIsMasked := by
  unfold Obligations.RandomIsMasked
  intro x kk s
  have masked : (s.setReg x (Config.freeByte s.draws &&& kk)).countDraw.advance.reg x = Config.freeByte s.draws &&& kk :=
    s.reg_setReg_self x _
  refine ⟨_, rfl, masked, fun k outside => ?_, rfl, rfl, exec_frame (i := .rnd x kk) rfl⟩
  rw [masked, BitVec.getLsbD_and, outside, Bool.and_false]

/-- No key is pressed, by the snapshot's entries (R108). -/
theorem State.firstKey_eq_none_iff (s : State) : s.firstKey = none ↔ ∀ k : Fin 16, s.key[k] = false := by
  rw [s.firstKey_eq_none]
  exact ⟨fun h k => h (BitVec.ofFin k), fun h k => h k.toFin⟩

/-- Settles O45. -/
theorem waitForKey : Obligations.WaitForKey := by
  unfold Obligations.WaitForKey
  refine fun x s => ⟨fun none => exec_ldVxK_of_none x (s.firstKey_eq_none_iff.2 none), fun k pressed least => ?_⟩
  have first : s.firstKey = some k.val :=
    (s.firstKey_eq_some k.val).2 ⟨k.isLt, pressed, fun j below => least ⟨j, below.trans k.isLt⟩ below⟩
  have completes := exec_ldVxK_of_some x first
  refine ⟨_, completes, ?_, rfl, exec_frame completes⟩
  rw [State.reg_advance, State.reg_setReg_self, BitVec.toNat_ofNat]
  omega

end Sys2Proof.Machine
end

section
/-! PROOFS. 43_index_memory.md sections 2 and 3 and 20_memory.md sections 7 and 8: stores, loads, stored code and the canonical
form. -/

namespace Sys2Proof.Machine

open Sys2Proof

/-! What memory reads as after the three transfers. -/

/-- A run that is stored reads back, address by address. -/
theorem Memory.read_writeBytes_inside (m : Memory) (a : Nat) (bs : List Byte) {k : Nat} (h : k < bs.length) :
    Memory.read (Memory.writeBytes m a bs) (a + k) = bs.getD k 0 := by
  rw [Memory.read_writeBytes, if_pos ⟨Nat.le_add_right a k, Nat.add_lt_add_left h a⟩, Nat.add_sub_cancel_left]

/-- A run that is stored leaves every address before it and after it. -/
theorem Memory.read_writeBytes_outside (m : Memory) (a : Nat) (bs : List Byte) {b : Nat}
    (h : b < a ∨ a + bs.length ≤ b) : Memory.read (Memory.writeBytes m a bs) b = Memory.read m b := by
  rw [Memory.read_writeBytes, if_neg (by omega)]

/-- In range, the check passes (20_memory.md R37). -/
theorem State.rangeFaults_eq_false {s : State} {k : Nat} (h : s.i.toNat + k ≤ 4095) : s.rangeFaults (k + 1) = false := by
  rw [← Bool.not_eq_true, s.rangeFaults_succ_iff]
  omega

/-- Settles O38: each digit is below 256, so its byte is the digit. -/
theorem storeDigits : Obligations.StoreDigits := by
  unfold Obligations.StoreDigits
  intro x s inRange
  have completes := (exec_ldB_eq_next_iff x s _).2 ⟨s.rangeFaults_eq_false inRange, rfl⟩
  have small := (s.reg x).isLt
  have stored : ∀ k < 3, Memory.read (Memory.writeBytes s.mem s.i.toNat (bcdDigits (s.reg x))) (s.i.toNat + k) =
      (bcdDigits (s.reg x)).getD k 0 := fun k h => Memory.read_writeBytes_inside s.mem s.i.toNat (bcdDigits (s.reg x)) h
  refine ⟨_, completes, ?hundreds, ?tens, ?ones, fun a outside => ?others, rfl, exec_frame completes⟩
  case hundreds => exact (congrArg BitVec.toNat (stored 0 (by decide))).trans (Nat.mod_eq_of_lt (by omega))
  case tens => exact (congrArg BitVec.toNat (stored 1 (by decide))).trans (Nat.mod_eq_of_lt (by omega))
  case ones => exact (congrArg BitVec.toNat (stored 2 (by decide))).trans (Nat.mod_eq_of_lt (by omega))
  case others => exact Memory.read_writeBytes_outside s.mem s.i.toNat (bcdDigits (s.reg x)) outside

/-- The block store of the registers reads back register by register (R98). -/
theorem State.read_writeBytes_regBlock (s : State) {x j : Reg} (h : j.toNat ≤ x.toNat) (a : Nat) :
    Memory.read (Memory.writeBytes s.mem a (s.regBlock x)) (a + j.toNat) = s.reg j := by
  rw [Memory.read_writeBytes_inside _ _ _ (by rw [s.length_regBlock]; omega), s.getD_regBlock x j h]

/-- Settles O39. -/
theorem storeRegisters : Obligations.StoreRegisters := by
  unfold Obligations.StoreRegisters
  intro x s inRange
  have completes := (exec_ldMemVx_eq_next_iff x s _).2 ⟨s.rangeFaults_eq_false inRange, rfl⟩
  refine ⟨_, completes, fun j upTo => s.read_writeBytes_regBlock upTo s.i.toNat, fun a outside => ?others, rfl,
    exec_frame completes⟩
  case others =>
    exact Memory.read_writeBytes_outside s.mem s.i.toNat (s.regBlock x) (by rw [s.length_regBlock]; omega)

/-- Settles O40. -/
theorem loadRegisters : Obligations.LoadRegisters := by
  unfold Obligations.LoadRegisters
  intro x s inRange
  have completes := (exec_ldVxMem_eq_next_iff x s _).2 ⟨s.rangeFaults_eq_false inRange, rfl⟩
  refine ⟨_, completes, fun j => ?loaded, ?pc, exec_frame completes⟩
  case loaded => rw [State.reg_advance, s.reg_loadBlock]
  case pc => rw [State.advance_pc, State.loadBlock_pc]

/-- Settles O41, from O39: the next fetch is at `I`, where registers 0 and 1 were stored. -/
theorem storedCodeIsFetched : Obligations.StoredCodeIsFetched := by
  unfold Obligations.StoredCodeIsFetched
  intro x s next two inRange
  obtain ⟨t, completes, stored, -, pc, -⟩ := storeRegisters x s inRange
  have fetchedAt : t.pc = s.i := pc.trans next.symm
  have inBound : t.pc.toNat ≤ 4094 := by rw [fetchedAt]; omega
  refine ⟨t, completes, ?_⟩
  rw [fetch_of_inside t inBound, fetchedAt, State.wordAt]
  exact congrArg Except.ok (congrArg₂ wordOfBytes (stored 0 (Nat.zero_le _)) (stored 1 two))

/-! The canonical form of memory. -/

/-- An address below every listed one reads as its reset contents. -/
theorem Memory.read_of_below {m : Memory} {a : Nat} (below : ∀ c ∈ m, a < c.1) : Memory.read m a = resetByte a := by
  induction m with
  | nil => rfl
  | cons c rest ih =>
    obtain ⟨first, others⟩ := List.forall_mem_cons.1 below
    rw [Memory.read, if_neg first.ne, ih others]

/-- The first cell's address reads as its byte. -/
theorem Memory.read_head (a : Nat) (v : Byte) (m : Memory) : Memory.read ((a, v) :: m) a = v := if_pos rfl

/-- A canonical memory whose first cell is at `a` reads as reset below `a`. -/
theorem Memory.read_below_head {a b : Nat} {v : Byte} {m : Memory} (wf : Memory.wf ((a, v) :: m) = true) (h : b < a) :
    Memory.read ((a, v) :: m) b = resetByte b := by
  obtain ⟨-, -, rising, -⟩ := (Memory.wf_cons a v m).1 wf
  exact Memory.read_of_below (List.forall_mem_cons.2 ⟨h, fun c listed => h.trans (rising c listed)⟩)

/-- Two canonical memories that read the same have no first cell before the other's. -/
theorem Memory.head_le {a b : Nat} {v w : Byte} {m n : Memory} (wfM : Memory.wf ((a, v) :: m) = true)
    (wfN : Memory.wf ((b, w) :: n) = true)
    (alike : ∀ c, Memory.read ((a, v) :: m) c = Memory.read ((b, w) :: n) c) : b ≤ a := by
  by_contra before
  obtain ⟨-, changed, -, -⟩ := (Memory.wf_cons a v m).1 wfM
  exact changed (by rw [← Memory.read_head a v m, alike, Memory.read_below_head wfN (Nat.lt_of_not_le before)])

/-- A canonical memory that reads as reset everywhere lists nothing. -/
theorem Memory.eq_nil_of_reads_reset {m : Memory} (wf : Memory.wf m = true)
    (reset : ∀ a, Memory.read m a = resetByte a) : m = [] := by
  cases m with
  | nil => rfl
  | cons c rest =>
    obtain ⟨a, v⟩ := c
    obtain ⟨-, changed, -, -⟩ := (Memory.wf_cons a v rest).1 wf
    exact absurd ((Memory.read_head a v rest).symm.trans (reset a)) changed

/-- Under one first cell, the rests read the same: at the cell's own address and below, both as reset. -/
theorem Memory.tail_reads {a : Nat} {v : Byte} {m n : Memory} (wfM : Memory.wf ((a, v) :: m) = true)
    (wfN : Memory.wf ((a, v) :: n) = true) (alike : ∀ c, Memory.read ((a, v) :: m) c = Memory.read ((a, v) :: n) c)
    (b : Nat) : Memory.read m b = Memory.read n b := by
  obtain ⟨-, -, risingM, -⟩ := (Memory.wf_cons a v m).1 wfM
  obtain ⟨-, -, risingN, -⟩ := (Memory.wf_cons a v n).1 wfN
  by_cases atCell : b = a
  · subst atCell
    rw [Memory.read_of_below risingM, Memory.read_of_below risingN]
  · simpa only [Memory.read, if_neg atCell] using alike b

/-- Settles O42, by induction on the list: the first cells are at the same address, hold the same byte, and the rests read the
same. -/
theorem canonicalMemoryIsUnique : Obligations.CanonicalMemoryIsUnique := by
  unfold Obligations.CanonicalMemoryIsUnique
  intro m
  induction m with
  | nil => exact fun n _ wfN alike => (Memory.eq_nil_of_reads_reset wfN fun a => (alike a).symm).symm
  | cons c m ih =>
    intro n wfM wfN alike
    obtain ⟨a, v⟩ := c
    cases n with
    | nil => exact Memory.eq_nil_of_reads_reset wfM alike
    | cons d n =>
      obtain ⟨b, w⟩ := d
      have sameAddress : a = b := le_antisymm (Memory.head_le wfN wfM fun c => (alike c).symm) (Memory.head_le wfM wfN alike)
      subst sameAddress
      have sameByte : v = w := by rw [← Memory.read_head a v m, alike, Memory.read_head]
      subst sameByte
      obtain ⟨-, -, -, wfRestM⟩ := (Memory.wf_cons a v m).1 wfM
      obtain ⟨-, -, -, wfRestN⟩ := (Memory.wf_cons a v n).1 wfN
      rw [ih n wfRestM wfRestN (Memory.tail_reads wfM wfN alike)]

end Sys2Proof.Machine
end

section
/-! PROOFS. 45_display.md: CLS, the two primitives, DRW cell by cell, and the same sprite drawn twice. -/

namespace Sys2Proof.Machine

open Sys2Proof

/-- Settles O47: only the word 00E0 encodes CLS; the instruction is one write of the buffer. -/
theorem clearScreen : Obligations.ClearScreen := by
  unfold Obligations.ClearScreen
  refine ⟨fun w => ?encoding, fun s => ⟨_, rfl, Display.pixel_clear s.disp, rfl, exec_frame (i := .cls) rfl⟩⟩
  case encoding =>
    have whole : w &&& 0xFFFF = w := BitVec.and_allOnes
    rw [decode_eq_instr_iff, whole]
    exact eq_comm

/-- The linear index `xx + yy * 64` names the cell `(xx, yy)` (R113). -/
theorem Display.linear_eq_pixel (d : Display) {xx : Fin 64} {yy : Fin 32} {k : Fin 2048} (h : k.val = xx.val + yy.val * 64) :
    Display.linear d k = Display.pixel d xx yy := by
  have column : Fin.ofNat 64 k.val = xx := Fin.ext (by simp only [Fin.val_ofNat]; omega)
  have row : Fin.ofNat 32 (k.val / 64) = yy := Fin.ext (by simp only [Fin.val_ofNat]; omega)
  rw [Display.linear, column, row]

/-- Toggling and noting collisions changes the buffer as toggling does. -/
theorem foldl_toggleCell_fst (cells : List (Fin 64 × Fin 32)) (p : Display × Bool) :
    (cells.foldl toggleCell p).1 = cells.foldl (fun d q => (Display.toggle d q.1 q.2).1) p.1 := by
  induction cells generalizing p with
  | nil => rfl
  | cons q qs ih => exact ih (toggleCell p q)

theorem drawSprite_fst_eq_toggles (vx vy : Nat) (rows : List Byte) (d : Display) :
    (drawSprite vx vy rows d).1 =
      (spriteCells vx vy 0 rows).foldl (fun d q => (Display.toggle d q.1 q.2).1) d := by
  rw [drawSprite, drawRows_eq_toggles, foldl_toggleCell_fst]

/-- A sprite has at most 15 rows, fewer than the display (R112). -/
theorem length_spriteRows (m : Memory) (a : Nat) (n : Nibble) : (Memory.readBytes m a n.toNat).length ≤ 32 := by
  rw [Memory.length_readBytes]
  omega

/-- Only CLS and DRW write the display (10_state.md R26). -/
theorem display_not_written {i : Instr} (notCls : i ≠ .cls) (notDrw : ∀ x y n, i ≠ .drw x y n) :
    .display ∉ writtenPieces i := by
  cases i
  case cls => exact absurd rfl notCls
  case drw x y n => exact absurd rfl (notDrw x y n)
  all_goals simp [writtenPieces]

/-- Settles O48: cell by cell from the laws of the two primitives; CLS is one clear, DRW is the toggles of the sprite's
cells, and no other instruction writes the buffer. -/
theorem displayPrimitives : Obligations.DisplayPrimitives := by
  unfold Obligations.DisplayPrimitives
  refine ⟨Display.pixel_clear, fun d xx yy => ⟨rfl, fun a b => ?toggle⟩, fun d xx yy k => Display.linear_eq_pixel d,
    fun i s t h changed => ?writers⟩
  case toggle =>
    rw [Display.pixel_toggle]
    split
    case isTrue same =>
      obtain ⟨rfl, rfl⟩ := same
      simp
    case isFalse other => simp [other]
  case writers =>
    by_cases isCls : i = .cls
    · subst isCls
      cases h
      exact .inl ⟨rfl, rfl⟩
    by_cases isDrw : ∃ x y n, i = .drw x y n
    · obtain ⟨x, y, n, rfl⟩ := isDrw
      obtain ⟨-, rfl⟩ := (exec_drw_eq_next_iff x y n s t).1 h
      exact .inr ⟨x, y, n, rfl, spriteCells (s.reg x).toNat (s.reg y).toNat 0 (Memory.readBytes s.mem s.i.toNat n.toNat),
        nodup_spriteCells _ _ 0 _ (length_spriteRows s.mem s.i.toNat n),
        fun q => mem_spriteCells_iff_covers _ _ _ q.1 q.2, drawSprite_fst_eq_toggles _ _ _ s.disp⟩
    · have notDrw : ∀ x y n, i ≠ .drw x y n := fun x y n e => isDrw ⟨x, y, n, e⟩
      exact absurd (exec_kept h (display_not_written isCls notDrw)) changed

/-- DRW's range check in numbers; a sprite of no rows is always in range (D18). -/
theorem State.sprite_inRange_iff (s : State) (n : Nibble) :
    s.rangeFaults n.toNat = false ↔ n = 0 ∨ s.i.toNat + n.toNat - 1 ≤ 4095 := by
  have noRows : n = 0 ↔ n.toNat = 0 := BitVec.toNat_inj.symm
  rw [← Bool.not_eq_true, s.rangeFaults_iff, noRows]
  omega

/-- After a draw the flag is the collision (R112). -/
theorem State.reg_vf_drawAt (s : State) (x y : Reg) (n : Nibble) (base : Nat) :
    (s.drawAt x y n base).reg vf =
      flagByte (drawSprite (s.reg x).toNat (s.reg y).toNat (Memory.readBytes s.mem base n.toNat) s.disp).2 :=
  State.reg_setReg_self _ vf _

/-- Settles O49: the laws of drawing give the cells and the collision, which is the flag. (`drawSprite` alone is the model's
function.) -/
theorem drawSprite_spec : Obligations.DrawSprite := by
  unfold Obligations.DrawSprite
  intro x y n s inRange
  have completes := (exec_drw_eq_next_iff x y n s _).2 ⟨(s.sprite_inRange_iff n).2 inRange, rfl⟩
  have short := length_spriteRows s.mem s.i.toNat n
  refine ⟨_, completes, fun xx yy => (pixel_drawSprite _ _ _ s.disp short xx yy).1,
    fun xx yy => (pixel_drawSprite _ _ _ s.disp short xx yy).2, ?bit, ?collision, rfl, exec_frame completes⟩
  case bit =>
    rw [State.reg_vf_drawAt]
    exact flagByte_zero_or_one _
  case collision =>
    rw [State.reg_vf_drawAt, flagByte_eq_one_iff]
    exact collision_drawSprite _ _ _ s.disp short

/-- Settles O50, from O49 twice: the place, the rows and `I` are the same at the second draw, so the same cells are flipped
back. -/
theorem drawTwiceRestores : Obligations.DrawTwiceRestores := by
  unfold Obligations.DrawTwiceRestores
  intro x y n s t notX notY h
  obtain ⟨range, drawn⟩ := (exec_drw_eq_next_iff x y n s t).1 h
  obtain ⟨otherRegs, -, -⟩ := exec_frame h
  have sameX : t.reg x = s.reg x := otherRegs x (by simpa [writtenRegs] using notX)
  have sameY : t.reg y = s.reg y := otherRegs y (by simpa [writtenRegs] using notY)
  have sameI : t.i = s.i := by rw [drawn]; rfl
  have sameMem : t.mem = s.mem := by rw [drawn]; rfl
  have inRange := (s.sprite_inRange_iff n).1 range
  obtain ⟨t', first, flipped, left, -⟩ := drawSprite_spec x y n s inRange
  cases h.symm.trans first
  obtain ⟨u, second, flippedBack, leftAgain, -, collision, -, -⟩ := drawSprite_spec x y n t (sameI ▸ inRange)
  rw [sameX, sameY, sameI, sameMem] at flippedBack leftAgain collision
  refine ⟨u, second, Display.ext_pixel u.disp s.disp fun xx yy => ?_, collision⟩
  by_cases covered : SpriteCovers (s.reg x).toNat (s.reg y).toNat (Memory.readBytes s.mem s.i.toNat n.toNat) xx yy
  · rw [flippedBack xx yy covered, flipped xx yy covered, Bool.not_not]
  · rw [leftAgain xx yy covered, left xx yy covered]

end Sys2Proof.Machine
end

section
/-! PROOFS. 40_step_cycle.md section 7 and 60_exceptions.md: what a step reports, a finished program, and the host's
operations. -/

namespace Sys2Proof.Machine

open Sys2Proof

theorem fetchInstr_eq_ok_iff (s : State) (i : Instr) :
    fetchInstr s = .ok i ↔ s.pc.toNat ≤ 4094 ∧ decode (s.wordAt s.pc.toNat) = .instr i :=
  ⟨bound_of_fetchInstr s i, fun h => fetchInstr_of_instr s i h.1 h.2⟩

/-- The step about to be taken waits exactly at LD Vx, K with no key pressed (R66, R108). -/
theorem waits_iff (s : State) :
    waits s = true ↔ (∃ x, fetchInstr s = .ok (.ldVxK x)) ∧ ∀ k : Fin 16, s.key[k] = false := by
  rw [← s.firstKey_eq_none_iff, waits]
  split
  next x fetched => simp [fetched]
  next other => simpa using fun x fetched => absurd fetched (other x)

theorem step_of_waits {s : State} (h : waits s = true) : step s = .next s := by
  obtain ⟨⟨x, fetched⟩, none⟩ := (waits_iff s).1 h
  rw [step_of_fetchInstr fetched, exec_ldVxK_of_none x (s.firstKey_eq_none_iff.2 none)]

/-- The report of a step that completes (R66). -/
theorem stepReport_of_next {s t : State} (h : step s = .next t) :
    stepReport s = if waits s then .waiting else .done := by
  rw [stepReport, h]

theorem stepReport_of_fault {s : State} {f : Fault} (h : step s = .fault f) : stepReport s = .fault f := by
  rw [stepReport, h]

theorem stepState_of_next {s t : State} (h : step s = .next t) : stepState s = t := by
  rw [stepState, h]

/-- A faulting step leaves the state (60_exceptions.md R119). -/
theorem stepState_of_fault {s : State} {f : Fault} (h : step s = .fault f) : stepState s = s := by
  rw [stepState, h]

theorem stepReport_eq_waiting_iff (s : State) : stepReport s = .waiting ↔ waits s = true := by
  constructor
  · intro h
    unfold stepReport at h
    split at h
    case h_1 => by_contra done; simp [done] at h
    all_goals cases h
  · intro h
    rw [stepReport_of_next (step_of_waits h), if_pos h]

/-- Settles O46: a step reports Waiting exactly when it waits, and then LD Vx, K answers its own state. -/
theorem waitingExactlyWhen : Obligations.WaitingExactlyWhen := by
  unfold Obligations.WaitingExactlyWhen
  intro s
  rw [stepReport_eq_waiting_iff]
  refine ⟨?_, step_of_waits⟩
  simp only [waits_iff, fetchInstr_eq_ok_iff, exists_and_left, and_assoc]

/-- Settles O58: JP to `PC` writes `PC` with its own value. -/
theorem finishedProgramStays : Obligations.FinishedProgramStays := by
  unfold Obligations.FinishedProgramStays
  intro s h
  unfold finished at h
  split at h
  next nnn fetched =>
    have toItself : zextAddr nnn = s.pc := eq_of_beq h
    rw [step_of_fetchInstr fetched]
    exact congrArg (fun target => Host.Outcome.next (s.jump target)) toItself
  next => cases h

/-- The host's step, in every phase after the first reset (60_exceptions.md R134). -/
theorem hostOp_step {h : Session} (on : h.phase ≠ .off) :
    hostOp .step h = (.stepped (stepReport h.core), { core := stepState h.core, phase := .running }) :=
  hostOp_of_on on .step

/-- Settles O12: the core stays, so the second step is the first again. -/
theorem faultLeavesStateUnchanged : Obligations.FaultLeavesStateUnchanged := by
  unfold Obligations.FaultLeavesStateUnchanged
  intro h f on faulted
  have first : hostOp .step h = (.stepped (.fault f), { core := h.core, phase := .running }) := by
    rw [hostOp_step on, stepReport_of_fault faulted, stepState_of_fault faulted]
  have again : ({ core := h.core, phase := .running } : Session).phase ≠ .off := by simp
  refine ⟨first, ?_⟩
  rw [first, hostOp_step again, stepReport_of_fault faulted]

/-- A step and a tick asked for together: the step's reply and state, then the tick (R129, D2). -/
theorem stepWithTick_eq {h : Session} (on : h.phase ≠ .off) :
    stepWithTick h = ([.stepped (stepReport h.core), .nothing],
      { core := tickTimers (stepState h.core), phase := .running }) := by
  have ticked : hostOp .tickTimers { core := stepState h.core, phase := .running } =
      (.nothing, { core := tickTimers (stepState h.core), phase := .running }) := hostOp_of_on (by simp) .tickTimers
  simp only [stepWithTick, hostRun, hostOp_step on, ticked]

/-- Settles O57. -/
theorem hostOperationsReply : Obligations.HostOperationsReply := by
  unfold Obligations.HostOperationsReply
  intro h on
  refine ⟨hostOp_of_on on .readDisplay, hostOp_step on, fun t completed => ⟨?state, ?waiting, ?done, ?both⟩, ?core⟩
  case state => rw [hostOp_step on, stepState_of_next completed]
  case waiting =>
    intro waiting
    rw [hostOp_step on, stepReport_of_next completed, if_pos ((waits_iff h.core).2 waiting)]
  case done =>
    intro notWaiting
    rw [hostOp_step on, stepReport_of_next completed, if_neg (mt (waits_iff h.core).1 notWaiting)]
  case both => rw [stepWithTick_eq on, hostOp_step on, stepState_of_next completed]
  case core => rw [stepWithTick_eq on]

/-! Ticks, loads and resets. -/

theorem toNat_iterate_tickDown (n : Nat) (b : Byte) : (tickDown^[n] b).toNat = b.toNat - n := by
  induction n with
  | zero => rfl
  | succ n ih => rw [Function.iterate_succ_apply', toNat_tickDown, ih, Nat.sub_sub]

/-- The sound timer runs down by itself (R126). -/
theorem iterate_tickTimers_st (n : Nat) (s : State) : (tickTimers^[n] s).st = tickDown^[n] s.st :=
  have commutes : Function.Semiconj State.st tickTimers tickDown := tickTimers_st
  commutes.iterate_right n s

/-- Settles O52: each timer runs down by itself, and `n` ticks of one take `n` away. -/
theorem timerRunsDown : Obligations.TimerRunsDown := by
  unfold Obligations.TimerRunsDown
  intro n s
  rw [iterate_tickTimers_dt, iterate_tickTimers_st, toNat_iterate_tickDown, toNat_iterate_tickDown]
  exact ⟨rfl, rfl⟩

theorem loadProgram_of_fits {image : List Byte} (s : State) (h : image.length ≤ 3584) :
    loadProgram image s = some (s.setMem (Memory.writeBytes s.mem 0x200 image)) :=
  if_pos (decide_eq_true h)

theorem loadProgram_of_oversize {image : List Byte} (s : State) (h : 3584 < image.length) : loadProgram image s = none :=
  if_neg fun fits => absurd (of_decide_eq_true fits) (Nat.not_le.2 h)

/-- Settles O54: one run of bytes stored at 0x200, or nothing. -/
theorem loadProgramPlacesImage : Obligations.LoadProgramPlacesImage := by
  unfold Obligations.LoadProgramPlacesImage
  refine fun image s => ⟨fun fits => ?_, loadProgram_of_oversize s⟩
  exact ⟨_, loadProgram_of_fits s fits, Memory.read_writeBytes image s.mem 0x200, rfl, frame_setMem s _⟩

/-! After a reset the load answers as `loadProgram` does (70_reset_and_hazards.md R143). -/

theorem hostOp_loadProgram_of_some {h : Session} {image : List Byte} {t : State} (fresh : h.phase = .fresh)
    (loaded : loadProgram image h.core = some t) :
    hostOp (.loadProgram image) h = (.loadOk, { core := t, phase := .loaded }) := by
  rw [hostOp_of_on (by simp [fresh]), hostOpOn, hostLoad, if_pos fresh, loaded]

theorem hostOp_loadProgram_of_none {h : Session} {image : List Byte} (fresh : h.phase = .fresh)
    (refused : loadProgram image h.core = none) : hostOp (.loadProgram image) h = (.loadOutOfRange, h) := by
  rw [hostOp_of_on (by simp [fresh]), hostOpOn, hostLoad, if_pos fresh, refused]

/-- In every other phase the host has no such move (R143, U13). -/
theorem hostOp_loadProgram_of_not_fresh {h : Session} (image : List Byte) (other : h.phase ≠ .fresh) :
    hostOp (.loadProgram image) h = (.noSuchMove, h) := by
  by_cases off : h.phase = .off
  · exact hostOp_of_off off (by simp)
  · rw [hostOp_of_on off]
    exact if_neg other

/-- The host's reset is a move in every phase (R142). -/
theorem hostOp_reset (h : Session) : hostOp .reset h = (.nothing, { core := hostReset h.core, phase := .fresh }) :=
  if_neg fun refused => refused.2 rfl

/-- An operation that is no reset, load or step leaves the phase. -/
theorem hostOp_keeps_phase {op : HostOp} (notReset : op ≠ .reset) (notStep : op ≠ .step)
    (notLoad : ∀ im, op ≠ .loadProgram im) (h : Session) : (hostOp op h).2.phase = h.phase := by
  by_cases off : h.phase = .off
  · rw [hostOp_of_off off notReset]
  · rw [hostOp_of_on off]
    cases op with
    | reset => exact absurd rfl notReset
    | step => exact absurd rfl notStep
    | loadProgram im => exact absurd rfl (notLoad im)
    | setKeys k => rfl
    | tickTimers => rfl
    | readDisplay => rfl

/-- Settles O55. -/
theorem loadOnlyOnceAfterReset : Obligations.LoadOnlyOnceAfterReset := by
  unfold Obligations.LoadOnlyOnceAfterReset
  refine fun image h => ⟨fun fresh fits => ?loads, fun fresh oversize => ?refuses, hostOp_loadProgram_of_not_fresh image,
    ?opens, fun on => ?closes, fun op notReset notStep notLoad => hostOp_keeps_phase notReset notStep notLoad h⟩
  case loads =>
    have loaded := loadProgram_of_fits h.core fits
    exact ⟨_, loaded, hostOp_loadProgram_of_some fresh loaded⟩
  case refuses => exact hostOp_loadProgram_of_none fresh (loadProgram_of_oversize h.core oversize)
  case opens => rw [hostOp_reset]
  case closes => rw [hostOp_step on]

/-- Nothing is written after reset: an address past the font reads 0 (R24). -/
theorem resetByte_of_past_font {a : Nat} (h : 80 ≤ a) : resetByte a = 0 := by
  have pastEnd : fontTable.length ≤ a := h
  rw [resetByte, List.getD_eq_default _ _ pastEnd]

/-- Settles O56: the core after the reset is the reset state but for the count of draws, and each piece of that state is
written out. -/
theorem resetRestoresEverything : Obligations.ResetRestoresEverything := by
  unfold Obligations.ResetRestoresEverything
  refine fun h => ⟨hostReset h.core, hostOp_reset h, fun r => ?regs, rfl, rfl, rfl, rfl, rfl, fun k => ?stack, rfl,
    fun a _ => rfl, fun a past => resetByte_of_past_font past, fun xx yy => Display.pixel_clear h.core.disp xx yy,
    fun k => ?keys⟩
  case regs => exact Vector.getElem_replicate r.isLt
  case stack => exact Vector.getElem_replicate k.isLt
  case keys => exact Vector.getElem_replicate k.isLt

end Sys2Proof.Machine
end
